-- ==== Sys2Proof/Word.lean ====
section
/-! DEFINITION. The word types of the core (00_scope.md rules R5, R8, R9): everything is unsigned. -/

namespace Sys2Proof

/-- A byte of memory, a general register or a timer: `XLEN = 8` bits (R5). -/
abbrev Byte := BitVec 8

/-- An instruction word, and the 16-bit container of `I`, `PC` and a stack slot (R5). -/
abbrev Word := BitVec 16

/-- The 12-bit address operand `nnn` (R9). -/
abbrev Addr12 := BitVec 12

/-- A four-bit number that names or counts something: a register index, a sprite height,
a key code (R9, 10_state.md rules R21, R30). -/
abbrev Nibble := Fin 16

end Sys2Proof
end

