-- ==== Sys2Proof/Syntax.lean ====
section
/-! DEFINITION. The 35 instructions, one constructor per row of spec/opcode_table.json, in the order
of 30_encoding.md rule R94. The operands are those the decoder delivers (R91). -/

namespace Sys2Proof

/-- An instruction, "fully disambiguated" as the glossary of 00_scope.md rule R13 says of an opcode tag. -/
inductive Instr where
  /-- `0nnn` SYS addr (R140) -/
  | sys (nnn : Addr12)
  /-- `00E0` CLS (R203) -/
  | cls
  /-- `00EE` RET (R141) -/
  | ret
  /-- `1nnn` JP addr (R142) -/
  | jp (nnn : Addr12)
  /-- `2nnn` CALL addr (R143) -/
  | call (nnn : Addr12)
  /-- `3xkk` SE Vx, byte (R144) -/
  | seByte (x : Nibble) (kk : Byte)
  /-- `4xkk` SNE Vx, byte (R145) -/
  | sneByte (x : Nibble) (kk : Byte)
  /-- `5xy0` SE Vx, Vy (R146) -/
  | seReg (x y : Nibble)
  /-- `6xkk` LD Vx, byte (R161) -/
  | ldByte (x : Nibble) (kk : Byte)
  /-- `7xkk` ADD Vx, byte (R162) -/
  | addByte (x : Nibble) (kk : Byte)
  /-- `8xy0` LD Vx, Vy (R163) -/
  | ldReg (x y : Nibble)
  /-- `8xy1` OR Vx, Vy (R164) -/
  | orReg (x y : Nibble)
  /-- `8xy2` AND Vx, Vy (R165) -/
  | andReg (x y : Nibble)
  /-- `8xy3` XOR Vx, Vy (R166) -/
  | xorReg (x y : Nibble)
  /-- `8xy4` ADD Vx, Vy (R167) -/
  | addReg (x y : Nibble)
  /-- `8xy5` SUB Vx, Vy (R168) -/
  | subReg (x y : Nibble)
  /-- `8xy6` SHR Vx, Vy (R169) -/
  | shr (x y : Nibble)
  /-- `8xy7` SUBN Vx, Vy (R170) -/
  | subn (x y : Nibble)
  /-- `8xyE` SHL Vx, Vy (R171) -/
  | shl (x y : Nibble)
  /-- `9xy0` SNE Vx, Vy (R147) -/
  | sneReg (x y : Nibble)
  /-- `Annn` LD I, addr (R180) -/
  | ldI (nnn : Addr12)
  /-- `Bnnn` JP V0, addr (R148) -/
  | jpV0 (nnn : Addr12)
  /-- `Cxkk` RND Vx, byte (R172) -/
  | rnd (x : Nibble) (kk : Byte)
  /-- `Dxyn` DRW Vx, Vy, nibble (R204) -/
  | drw (x y n : Nibble)
  /-- `Ex9E` SKP Vx (R218) -/
  | skp (x : Nibble)
  /-- `ExA1` SKNP Vx (R219) -/
  | sknp (x : Nibble)
  /-- `Fx07` LD Vx, DT (R215) -/
  | ldVxDt (x : Nibble)
  /-- `Fx0A` LD Vx, K (R220) -/
  | ldVxK (x : Nibble)
  /-- `Fx15` LD DT, Vx (R216) -/
  | ldDtVx (x : Nibble)
  /-- `Fx18` LD ST, Vx (R217) -/
  | ldStVx (x : Nibble)
  /-- `Fx1E` ADD I, Vx (R181) -/
  | addI (x : Nibble)
  /-- `Fx29` LD F, Vx (R182) -/
  | ldF (x : Nibble)
  /-- `Fx33` LD B, Vx (R183) -/
  | ldB (x : Nibble)
  /-- `Fx55` LD [I], Vx (R184) -/
  | ldMemVx (x : Nibble)
  /-- `Fx65` LD Vx, [I] (R185) -/
  | ldVxMem (x : Nibble)
  deriving DecidableEq, Repr

end Sys2Proof
end

