-- ==== Sys2Proof/Decode.lean ====
section
/-! DEFINITION. The decoder of 30_encoding.md rules R92 to R95, total on every word, and the encoder
written from the same table (R94). -/

namespace Sys2Proof

/-- What the decoder answers: it "never fails" (R93), a word with no tag is `Unrecognized`. -/
inductive Decoded where
  | instr (i : Instr)
  | unrecognized (w : Word)
  deriving DecidableEq, Repr

/-! ### Fields (00_scope.md rule R9, 30_encoding.md rule R92) -/

/-- `op = w[15:12]` -/
def fieldOp (w : Word) : Nat := w.toNat / 0x1000

/-- `x = w[11:8]` -/
def fieldX (w : Word) : Nibble := Fin.ofNat 16 (w.toNat / 0x100)

/-- `y = w[7:4]` -/
def fieldY (w : Word) : Nibble := Fin.ofNat 16 (w.toNat / 0x10)

/-- `n = w[3:0]` -/
def fieldN (w : Word) : Nibble := Fin.ofNat 16 w.toNat

/-- `kk = w[7:0]` -/
def fieldKk (w : Word) : Byte := BitVec.ofNat 8 w.toNat

/-- `nnn = w[11:0]` -/
def fieldNnn (w : Word) : Addr12 := BitVec.ofNat 12 w.toNat

/-! ### Decoding (R93) -/

/-- Family 0: the two exact words, else SYS. -/
def decodeFamily0 (w : Word) : Decoded :=
  if w = 0x00E0#16 then .instr .cls
  else if w = 0x00EE#16 then .instr .ret
  else .instr (.sys (fieldNnn w))

/-- Family 8, refined by the low nibble. -/
def decodeFamily8 (w : Word) : Decoded :=
  match (fieldN w).val with
  | 0x0 => .instr (.ldReg (fieldX w) (fieldY w))
  | 0x1 => .instr (.orReg (fieldX w) (fieldY w))
  | 0x2 => .instr (.andReg (fieldX w) (fieldY w))
  | 0x3 => .instr (.xorReg (fieldX w) (fieldY w))
  | 0x4 => .instr (.addReg (fieldX w) (fieldY w))
  | 0x5 => .instr (.subReg (fieldX w) (fieldY w))
  | 0x6 => .instr (.shr (fieldX w) (fieldY w))
  | 0x7 => .instr (.subn (fieldX w) (fieldY w))
  | 0xE => .instr (.shl (fieldX w) (fieldY w))
  | _ => .unrecognized w

/-- Family E, refined by the low byte. -/
def decodeFamilyE (w : Word) : Decoded :=
  match (fieldKk w).toNat with
  | 0x9E => .instr (.skp (fieldX w))
  | 0xA1 => .instr (.sknp (fieldX w))
  | _ => .unrecognized w

/-- Family F, refined by the low byte. -/
def decodeFamilyF (w : Word) : Decoded :=
  match (fieldKk w).toNat with
  | 0x07 => .instr (.ldVxDt (fieldX w))
  | 0x0A => .instr (.ldVxK (fieldX w))
  | 0x15 => .instr (.ldDtVx (fieldX w))
  | 0x18 => .instr (.ldStVx (fieldX w))
  | 0x1E => .instr (.addI (fieldX w))
  | 0x29 => .instr (.ldF (fieldX w))
  | 0x33 => .instr (.ldB (fieldX w))
  | 0x55 => .instr (.ldMemVx (fieldX w))
  | 0x65 => .instr (.ldVxMem (fieldX w))
  | _ => .unrecognized w

/-- `decode(w)` (R93): the top nibble selects a family. A top nibble is below 16, so the last
alternative is never reached. -/
def decodeWord (w : Word) : Decoded :=
  match fieldOp w with
  | 0x0 => decodeFamily0 w
  | 0x1 => .instr (.jp (fieldNnn w))
  | 0x2 => .instr (.call (fieldNnn w))
  | 0x3 => .instr (.seByte (fieldX w) (fieldKk w))
  | 0x4 => .instr (.sneByte (fieldX w) (fieldKk w))
  | 0x5 => if fieldN w = 0 then .instr (.seReg (fieldX w) (fieldY w)) else .unrecognized w
  | 0x6 => .instr (.ldByte (fieldX w) (fieldKk w))
  | 0x7 => .instr (.addByte (fieldX w) (fieldKk w))
  | 0x8 => decodeFamily8 w
  | 0x9 => if fieldN w = 0 then .instr (.sneReg (fieldX w) (fieldY w)) else .unrecognized w
  | 0xA => .instr (.ldI (fieldNnn w))
  | 0xB => .instr (.jpV0 (fieldNnn w))
  | 0xC => .instr (.rnd (fieldX w) (fieldKk w))
  | 0xD => .instr (.drw (fieldX w) (fieldY w) (fieldN w))
  | 0xE => decodeFamilyE w
  | 0xF => decodeFamilyF w
  | _ => .unrecognized w

/-! ### Bytes (20_memory.md rule R64) -/

/-- The instruction word of two bytes in memory: the byte at the lower address is the high byte. -/
def wordOfBytes (hi lo : Byte) : Word := BitVec.ofNat 16 (hi.toNat * 0x100 + lo.toNat)

/-- The byte of an instruction word that stands at the lower address. -/
def highByte (w : Word) : Byte := BitVec.ofNat 8 (w.toNat / 0x100)

/-- The byte of an instruction word that stands at the higher address. -/
def lowByte (w : Word) : Byte := BitVec.ofNat 8 w.toNat

/-- Decoding the two bytes of an instruction as they stand in memory. -/
def decodeBytes (hi lo : Byte) : Decoded := decodeWord (wordOfBytes hi lo)

/-- The word whose bits are `w`, numbered as the table numbers them; bits from `nbits` up are 0. -/
def tableWord (nbits w : Nat) : Word := BitVec.ofNat 16 (w % 2 ^ nbits)

/-- The instruction the decoder reads from a table word laid out as the hardware stores it. -/
def decodeTableWord (nbits w : Nat) : Option Instr :=
  match decodeBytes (highByte (tableWord nbits w)) (lowByte (tableWord nbits w)) with
  | .instr i => some i
  | .unrecognized _ => none

/-! ### Encoding (R91, R94) -/

/-- Format A: `op nnn`. -/
def packA (op : Nat) (nnn : Addr12) : Word := BitVec.ofNat 16 (op * 0x1000 + nnn.toNat)

/-- Formats XK and X: `op x kk`. -/
def packXK (op : Nat) (x : Nibble) (kk : Byte) : Word :=
  BitVec.ofNat 16 (op * 0x1000 + x.val * 0x100 + kk.toNat)

/-- Formats XY and XYN: `op x y n`. -/
def packXYN (op : Nat) (x y n : Nibble) : Word :=
  BitVec.ofNat 16 (op * 0x1000 + x.val * 0x100 + y.val * 0x10 + n.val)

/-- The word of an instruction (R94). -/
def encode : Instr → Word
  | .sys nnn => packA 0x0 nnn
  | .cls => 0x00E0#16
  | .ret => 0x00EE#16
  | .jp nnn => packA 0x1 nnn
  | .call nnn => packA 0x2 nnn
  | .seByte x kk => packXK 0x3 x kk
  | .sneByte x kk => packXK 0x4 x kk
  | .seReg x y => packXYN 0x5 x y 0x0
  | .ldByte x kk => packXK 0x6 x kk
  | .addByte x kk => packXK 0x7 x kk
  | .ldReg x y => packXYN 0x8 x y 0x0
  | .orReg x y => packXYN 0x8 x y 0x1
  | .andReg x y => packXYN 0x8 x y 0x2
  | .xorReg x y => packXYN 0x8 x y 0x3
  | .addReg x y => packXYN 0x8 x y 0x4
  | .subReg x y => packXYN 0x8 x y 0x5
  | .shr x y => packXYN 0x8 x y 0x6
  | .subn x y => packXYN 0x8 x y 0x7
  | .shl x y => packXYN 0x8 x y 0xE
  | .sneReg x y => packXYN 0x9 x y 0x0
  | .ldI nnn => packA 0xA nnn
  | .jpV0 nnn => packA 0xB nnn
  | .rnd x kk => packXK 0xC x kk
  | .drw x y n => packXYN 0xD x y n
  | .skp x => packXK 0xE x 0x9E#8
  | .sknp x => packXK 0xE x 0xA1#8
  | .ldVxDt x => packXK 0xF x 0x07#8
  | .ldVxK x => packXK 0xF x 0x0A#8
  | .ldDtVx x => packXK 0xF x 0x15#8
  | .ldStVx x => packXK 0xF x 0x18#8
  | .addI x => packXK 0xF x 0x1E#8
  | .ldF x => packXK 0xF x 0x29#8
  | .ldB x => packXK 0xF x 0x33#8
  | .ldMemVx x => packXK 0xF x 0x55#8
  | .ldVxMem x => packXK 0xF x 0x65#8

end Sys2Proof
end

