-- ==== Sys2Proof/Config.lean ====
section
/-! DEFINITION. The named parameters of 00_scope.md rule R6: what is fixed for a machine, and the
values the spec leaves free. A free value is an opaque constant, so a statement holds whatever it is. -/

namespace Sys2Proof

/-- Which register SHR and SHL read: `VX` is "ignoring the second operand", `VY` is "using it"
(42_alu.md rule R169). -/
inductive ShiftSrc where
  | vx
  | vy
  deriving DecidableEq, Repr, Inhabited

/-- `SHIFT_SRC`: OPEN, no default (R6, 92_eei_decisions.md D5). DESIGN CHOICE, safe: log entry 2. -/
opaque Config.shiftSrc : ShiftSrc

/-- `mem0`: the memory contents at power-on, unconstrained (R6, 10_state.md rule R40).
A free value, safe: log entry 6. -/
opaque Config.mem0 : Nat → Byte

/-- `rnd`: the byte of the `k`-th execution of RND, a free draw (R6, 42_alu.md rule R172).
A free value, safe: log entry 7. -/
opaque Config.rnd : Nat → Byte

/-- `ADDI_SETS_FLAG`: the spec's default (R6, D6). DESIGN CHOICE, unsafe: log entry 3. -/
def Config.addiSetsFlag : Bool := true

/-- `SLICE_TOUCH_FAULTS`: the spec's default (R6, D21). DESIGN CHOICE, unsafe: log entry 4. -/
def Config.sliceTouchFaults : Bool := false

/-- `FONT`: the spec's default, 16 glyphs of 5 bytes (10_state.md rule R41, D3).
PRESUMED, unsafe: log entry 5. -/
def Config.font : List Byte :=
  [0xF0#8, 0x90#8, 0x90#8, 0x90#8, 0xF0#8] ++
  [0x20#8, 0x60#8, 0x20#8, 0x20#8, 0x70#8] ++
  [0xF0#8, 0x10#8, 0xF0#8, 0x80#8, 0xF0#8] ++
  [0xF0#8, 0x10#8, 0xF0#8, 0x10#8, 0xF0#8] ++
  [0x90#8, 0x90#8, 0xF0#8, 0x10#8, 0x10#8] ++
  [0xF0#8, 0x80#8, 0xF0#8, 0x10#8, 0xF0#8] ++
  [0xF0#8, 0x80#8, 0xF0#8, 0x90#8, 0xF0#8] ++
  [0xF0#8, 0x10#8, 0x20#8, 0x40#8, 0x40#8] ++
  [0xF0#8, 0x90#8, 0xF0#8, 0x90#8, 0xF0#8] ++
  [0xF0#8, 0x90#8, 0xF0#8, 0x10#8, 0xF0#8] ++
  [0xF0#8, 0x90#8, 0xF0#8, 0x90#8, 0x90#8] ++
  [0xE0#8, 0x90#8, 0xE0#8, 0x90#8, 0xE0#8] ++
  [0xF0#8, 0x80#8, 0x80#8, 0x80#8, 0xF0#8] ++
  [0xE0#8, 0x90#8, 0x90#8, 0x90#8, 0xE0#8] ++
  [0xF0#8, 0x80#8, 0xF0#8, 0x80#8, 0xF0#8] ++
  [0xF0#8, 0x80#8, 0xF0#8, 0x80#8, 0x80#8]

end Sys2Proof
end

