-- ==== Sys2Proof/Machine/State.lean ====
section
/-! DEFINITION. The complete state of the core (10_state.md rule R20) as plain data, the ways a step
can stop, and the state after power-on and reset (R42). -/

namespace Sys2Proof.Machine

/-- The fault kinds of 60_exceptions.md rule R242 with the information each record carries.
A fault is latched in `State.faulted` by the step that raises it (R241); `step` answers it as a host
fault when it finds the latch set (40_step_cycle.md rule R121 step 0). Both are the spec's: safe. -/
inductive Fault where
  /-- An access outside 0x000 to 0xFFF, raised by fetch, LD B, LD [I], LD Vx,[I] and DRW (R243). Safe. -/
  | addressError (addr : Nat)
  /-- A program longer than 3584 bytes, raised by `loadProgram` only (R244). Safe. -/
  | memoryOverflow
  /-- A word with no handler, raised by dispatch and by SYS (R245). Safe. -/
  | illegalOpcode (w : Word)
  /-- CALL with 16 entries on the stack (R246). Safe. -/
  | stackOverflow
  /-- RET with an empty stack (R247). Safe. -/
  | stackUnderflow
  /-- The defensive check of the helpers called standalone; no event of the interface raises it (R248). Safe. -/
  | invalidValue
  deriving DecidableEq, Repr

/-- What the model gives no meaning. -/
inductive Refusal where
  /-- An instruction without a meaning yet; no arm of `exec` answers it now. Safe. -/
  | notModelled (mnemonic : String)
  /-- `setKey` or `clearKey` with a code above 15, "outside the interface's domain"
  (60_exceptions.md rule R265, 92_eei_decisions.md D33). Raised by `applyEvent`. Safe. -/
  | keyCodeOutOfDomain (code : Nat)
  /-- A load that rewrites the instruction at `PC` during a key wait, which the host must not do
  (70_reset_and_hazards.md rule R287, 93_implementation_defined.md row 26). Raised by `applyEvent`. Safe. -/
  | loadRewritesWaitInstruction
  deriving DecidableEq, Repr

/-- Memory: the bytes that have been written since power-on and differ from the reset contents,
in the canonical form `Memory.wf` of Machine/Ops.lean. -/
abbrev Memory := List Host.Cell

/-- The display, 32 rows of 64 one-bit pixels, row-major (R29); `true` is lit. -/
abbrev Display := Vector (Vector Bool 64) 32

/-- The complete state of the core (R20), and one field of the model's own, `draws`. -/
structure State where
  /-- `MEM` (R20, R40, 20_memory.md rule R60) -/
  mem : Memory
  /-- `V[0]` to `V[15]` (R21) -/
  v : Vector Byte 16
  /-- `I`, a 16-bit container (R24) -/
  i : Word
  /-- `PC`, a 16-bit container (R25) -/
  pc : Word
  /-- `DT` (R26) -/
  dt : Byte
  /-- `ST` (R27) -/
  st : Byte
  /-- `SP`, the number of live stack entries, 0 to 16 (R28) -/
  sp : Fin 17
  /-- `STACK[0]` (oldest) to `STACK[15]` (R28) -/
  stack : Vector Word 16
  /-- `FB` (R29) -/
  fb : Display
  /-- `pressed` (R30) -/
  pressed : Option Nibble
  /-- `waiting`: the core is in WaitingForKey (R31) -/
  waiting : Bool
  /-- `waitReg` (R32) -/
  waitReg : Nibble
  /-- `faulted` (R33) -/
  faulted : Option Fault
  /-- THE MODEL'S OWN: how many random bytes RND has drawn, so that each draw is a fresh free value
  `Config.rnd draws` (42_alu.md rule R172). Log entry 7. -/
  draws : Nat
  deriving DecidableEq, Repr

/-- The state after power-on and the first reset (R42, 70_reset_and_hazards.md rule R282). No byte of
memory is listed: the font block reads as `FONT` and the rest as `mem0` (R40). `draws` is a
DESIGN CHOICE, log entry 7. -/
def State.reset : State where
  mem := []
  v := Vector.replicate 16 0#8
  i := 0x200#16
  pc := 0x200#16
  dt := 0#8
  st := 0#8
  sp := 0
  stack := Vector.replicate 16 0#16
  fb := Vector.replicate 32 (Vector.replicate 64 false)
  pressed := none
  waiting := false
  waitReg := 0
  faulted := none
  draws := 0

end Sys2Proof.Machine
end

