-- ==== Sys2Proof/Machine/Ops.lean ====
section
/-! DEFINITION. The named operations over memory, registers, the call stack and the wait, and raising
a fault as one shared operation. Instruction meanings are written over these. -/

namespace Sys2Proof.Machine

/-- The type of `exec`, `step` and every meaning. -/
abbrev Result := Host.Outcome State Fault Refusal

/-- `MEM_SIZE` (00_scope.md rule R5). -/
def memSize : Nat := 4096

/-- `PROG_BASE` (R5). -/
def progBase : Nat := 0x200

/-! ### Memory as data -/

/-- What the spec says a byte holds after reset: `FONT` at 0x000 to 0x04F, nothing elsewhere
(10_state.md rules R40 to R42). -/
def resetByte? (a : Nat) : Option Byte := Config.font[a]?

/-- What an unlisted address reads as: its reset content, else the free byte `mem0` (R40).
Log entries 5 and 6. -/
def Memory.unlisted (a : Nat) : Byte :=
  match resetByte? a with
  | some b => b
  | none => Config.mem0 a

/-- The listed byte at an address, if there is one. -/
def Memory.listed? : Memory → Nat → Option Byte
  | [], _ => none
  | (b, u) :: m, a => if a = b then some u else Memory.listed? m a

/-- `MEM[a]`. -/
def Memory.byte (m : Memory) (a : Nat) : Byte :=
  match Memory.listed? m a with
  | some u => u
  | none => Memory.unlisted a

/-- List `v` at `a`, in address order, in place of what was listed there. -/
def Memory.insert : Memory → Nat → Byte → Memory
  | [], a, v => [(a, v)]
  | (b, u) :: m, a, v =>
    if a < b then (a, v) :: (b, u) :: m
    else if a = b then (a, v) :: m
    else (b, u) :: Memory.insert m a v

/-- Unlist the address `a`. -/
def Memory.erase : Memory → Nat → Memory
  | [], _ => []
  | (b, u) :: m, a => if a = b then Memory.erase m a else (b, u) :: Memory.erase m a

/-- `MEM[a] <- v`, keeping the canonical form: a byte equal to the reset content is not listed. -/
def Memory.put (m : Memory) (a : Nat) (v : Byte) : Memory :=
  if resetByte? a = some v then Memory.erase m a else Memory.insert m a v

/-- `MEM[a + k] <- bytes[k]` for every `k`. -/
def Memory.putAll : Memory → Nat → List Byte → Memory
  | m, _, [] => m
  | m, a, b :: bs => Memory.putAll (Memory.put m a b) (a + 1) bs

/-- The canonical form from address `lo` on: addresses strictly rise, lie in memory, and no byte
listed is the one the reset contents give. -/
def Memory.wfFrom : Nat → Memory → Bool
  | _, [] => true
  | lo, (a, u) :: m =>
    decide (lo ≤ a) && decide (a < memSize) && decide (resetByte? a ≠ some u) &&
      Memory.wfFrom (a + 1) m

/-- The canonical form of a memory. -/
def Memory.wf (m : Memory) : Bool := Memory.wfFrom 0 m

/-! ### Updates of one piece of state -/

/-- `V[r]`, seen as a byte (00_scope.md rule R10). -/
def State.reg (s : State) (r : Nibble) : Byte := s.v[r.val]

/-- `V[r] <- b`. -/
def State.setReg (s : State) (r : Nibble) (b : Byte) : State := { s with v := s.v.set r.val b }

/-- `VF` (10_state.md rule R23). -/
def regF : Nibble := 15

/-- `I <- w`. -/
def State.setI (s : State) (w : Word) : State := { s with i := w }

/-- `PC <- w`. -/
def State.setPc (s : State) (w : Word) : State := { s with pc := w }

/-- `DT <- b`. -/
def State.setDt (s : State) (b : Byte) : State := { s with dt := b }

/-- `ST <- b`. -/
def State.setSt (s : State) (b : Byte) : State := { s with st := b }

/-- `MEM <- m`. -/
def State.setMem (s : State) (m : Memory) : State := { s with mem := m }

/-- `FB <- d`. -/
def State.setFb (s : State) (d : Display) : State := { s with fb := d }

/-- `pressed <- p`. -/
def State.setPressed (s : State) (p : Option Nibble) : State := { s with pressed := p }

/-- `waiting <- b`. -/
def State.setWaiting (s : State) (b : Bool) : State := { s with waiting := b }

/-- `waitReg <- r`. -/
def State.setWaitReg (s : State) (r : Nibble) : State := { s with waitReg := r }

/-- The call stack and its count. -/
def State.setStack (s : State) (sp : Fin 17) (stack : Vector Word 16) : State :=
  { s with sp := sp, stack := stack }

/-- The count of random bytes drawn. -/
def State.setDraws (s : State) (k : Nat) : State := { s with draws := k }

/-! ### The program counter -/

/-- A value of `I` or `PC`: reduced modulo `ADDR_MOD = 4096` (10_state.md rules R24, R25). -/
def wrapAddr (n : Nat) : Word := BitVec.ofNat 16 (n % 4096)

/-- `(PC + k) mod 4096` (40_step_cycle.md rule R122). -/
def State.pcPlus (s : State) (k : Nat) : Word := wrapAddr (s.pc.toNat + k)

/-- `PC <- (PC + k) mod 4096`. -/
def State.advance (s : State) (k : Nat) : State := s.setPc (s.pcPlus k)

/-- An instruction that ends by moving on by its own width, `INSN_LEN = 2` (R122). -/
def completed (s : State) : Result := .next (s.advance 2)

/-- A skip instruction: 4 on when its condition holds, else 2 (R122). -/
def skipIf (c : Bool) (s : State) : Result := .next (s.advance (if c then 4 else 2))

/-! ### Faults (60_exceptions.md rules R241, R242, R251) -/

/-- TAKING AN EXCEPTION: the fault is latched, what was done before stands, `PC` stays at the
instruction, and nothing is saved or transferred anywhere, since there is no trap entry (R241, R251).
There is no return from it either: only `reset()` clears the latch (R252, R253). -/
def takeFault (f : Fault) (s : State) : State := { s with faulted := some f }

/-- `raise f` in a step: the next state is the one with the fault latched. Log entry 1. -/
def raise (f : Fault) (s : State) : Result := .next (takeFault f s)

/-- The numeric code of a fault record, 0 for none (R242). -/
def faultCode : Option Fault → Nat
  | none => 0
  | some (.addressError _) => 1
  | some .memoryOverflow => 2
  | some (.illegalOpcode _) => 3
  | some .stackOverflow => 4
  | some .stackUnderflow => 5
  | some .invalidValue => 6

/-- A step that finds a fault latched: no state change, and the outcome is the recorded fault
(40_step_cycle.md rules R121 step 0, R124). -/
def stepFaulted (f : Fault) (_s : State) : Result := .fault f

/-! ### Memory access (20_memory.md rules R61 to R66) -/

/-- `MemRead(a, 1)` (R61). -/
def memRead (a : Nat) (s : State) : Except Fault Byte :=
  if a < memSize then .ok (Memory.byte s.mem a) else .error (.addressError a)

/-- `MemWrite(a, 1, v)` (R62). -/
def memWrite (a : Nat) (v : Byte) (s : State) : Except Fault State :=
  if a < memSize then .ok (s.setMem (Memory.put s.mem a v)) else .error (.addressError a)

/-- `MemRead(a, 2)`, big-endian, with no wrap at the top of memory (R63, R64). -/
def memReadWord (a : Nat) (s : State) : Except Fault Word :=
  if a + 1 < memSize then .ok (wordOfBytes (Memory.byte s.mem a) (Memory.byte s.mem (a + 1)))
  else .error (.addressError a)

/-- `MemReadSlice(a, len)` under either value of `SLICE_TOUCH_FAULTS` (R66). -/
def memReadSliceWith (touchFaults : Bool) (a len : Nat) (s : State) : Except Fault (List Byte) :=
  if memSize < a + len then .error (.addressError a)
  else if touchFaults && decide (0 < len) && decide (a + len = memSize) then .error (.addressError a)
  else .ok ((List.range len).map fun k => Memory.byte s.mem (a + k))

/-- `MemReadSlice(a, len)` of this machine. -/
def memReadSlice (a len : Nat) (s : State) : Except Fault (List Byte) :=
  memReadSliceWith Config.sliceTouchFaults a len s

/-- `loadBytes(start, bytes)`: both checks precede every write (R65). -/
def loadBytes (start : Nat) (bytes : List Byte) (s : State) : Except Fault State :=
  if memSize ≤ start then .error (.addressError start)
  else if memSize < start + bytes.length then .error .memoryOverflow
  else .ok (s.setMem (Memory.putAll s.mem start bytes))

/-- Byte writes at `a`, `a + 1`, ... in ascending order, up to the first fault; the writes before it
stand (R68, 43_index_memory.md rules R183, R184). -/
def writeBytes : Nat → List Byte → State → State × Option Fault
  | _, [], s => (s, none)
  | a, b :: bs, s =>
    match memWrite a b s with
    | .error f => (s, some f)
    | .ok t => writeBytes (a + 1) bs t

/-- Byte reads at `a`, `a + 1`, ... into the listed registers, up to the first fault; the registers
loaded before it keep their new values (43_index_memory.md rule R185). -/
def readRegs : Nat → List Nibble → State → State × Option Fault
  | _, [], s => (s, none)
  | a, r :: rs, s =>
    match memRead a s with
    | .error f => (s, some f)
    | .ok b => readRegs (a + 1) rs (s.setReg r b)

/-- The end of a multi-byte transfer: move on, or raise the fault it met. -/
def finishTransfer : State × Option Fault → Result
  | (s, none) => completed s
  | (s, some f) => raise f s

/-- The fetch of a step: `MemRead(PC, 2)` (40_step_cycle.md rule R121 step 2a). -/
def fetch (s : State) : Except Fault Word := memReadWord s.pc.toNat s

/-! ### The call stack (10_state.md rule R28) -/

/-- Push `w`, or StackOverflow when 16 entries are held. -/
def pushStack (w : Word) (s : State) : Except Fault State :=
  if h : s.sp.val < 16 then
    .ok (s.setStack ⟨s.sp.val + 1, by omega⟩ (s.stack.set s.sp.val w h))
  else .error .stackOverflow

/-- Pop the newest entry, or StackUnderflow when there is none; the vacated slot keeps its content. -/
def popStack (s : State) : Except Fault (Word × State) :=
  if h : 0 < s.sp.val then
    .ok (s.stack[s.sp.val - 1], s.setStack ⟨s.sp.val - 1, by omega⟩ s.stack)
  else .error .stackUnderflow

/-! ### The key latch and the wait (40_step_cycle.md rules R121 step 1, R123) -/

/-- A key code as a register value. -/
def keyByte (k : Nibble) : Byte := BitVec.ofNat 8 k.val

/-- The pressed key is the one whose code is `b`, on all 8 bits
(45_timers_keys.md rule R218, 92_eei_decisions.md D12). -/
def keyIs (b : Byte) (s : State) : Bool :=
  match s.pressed with
  | some k => keyByte k == b
  | none => false

/-- Consume the key `k` into register `r`. -/
def State.takeKey (s : State) (r k : Nibble) : State := (s.setReg r (keyByte k)).setPressed none

/-- Enter WaitingForKey with target register `r`; `PC` stays (45_timers_keys.md rule R220). -/
def State.enterWait (s : State) (r : Nibble) : State := (s.setWaiting true).setWaitReg r

/-- A step in WaitingForKey (R121 step 1). -/
def stepWaiting (s : State) : Result :=
  match s.pressed with
  | some k => completed ((s.takeKey s.waitReg k).setWaiting false)
  | none => .next s

/-! ### Dispatch -/

/-- A word whose tag has no handler (R121 step 2b, 60_exceptions.md rule R245). -/
def raiseIllegal (w : Word) (s : State) : Result := raise (.illegalOpcode w) s

/-- Place an instruction word where the next fetch reads it. -/
def State.placeWord (s : State) (w : Word) : State :=
  if s.pc.toNat + 1 < memSize then
    s.setMem (Memory.put (Memory.put s.mem s.pc.toNat (highByte w)) (s.pc.toNat + 1) (lowByte w))
  else s

end Sys2Proof.Machine
end

