-- ==== Sys2Proof/Machine/Operands.lean ====
section
/-! DEFINITION. The operand forms: immediates, register pairs, the shift source, the addresses formed
from `nnn`, `V[0]` and `I`, register ranges, BCD digits and sprite rows. -/

namespace Sys2Proof.Machine

/-- The two register operands of format XY, read before anything is written
(42_alu.md rule R173). -/
def regPair (x y : Nibble) (s : State) : Byte × Byte := (s.reg x, s.reg y)

/-- The operand of SHR and SHL under either value of `SHIFT_SRC` (42_alu.md rules R169, R171). -/
def shiftSourceWith (q : ShiftSrc) (x y : Nibble) (s : State) : Byte :=
  match q with
  | .vx => s.reg x
  | .vy => s.reg y

/-- The operand of a shift on this machine: when `x = y` both settings agree (R169). Log entry 2. -/
def shiftSource (x y : Nibble) (s : State) : Byte :=
  if x = y then s.reg x else shiftSourceWith Config.shiftSrc x y s

/-- `nnn` as an absolute address (30_encoding.md rule R92). -/
def absoluteAddr (nnn : Addr12) : Word := BitVec.ofNat 16 nnn.toNat

/-- `(nnn + V[0]) mod 4096` (41_control_flow.md rule R148). -/
def offsetAddr (nnn : Addr12) (s : State) : Word := wrapAddr (nnn.toNat + (s.reg 0).toNat)

/-- The base address of the `I + k` mode, on naturals (43_index_memory.md rule R186,
20_memory.md rule R70). -/
abbrev indexBase (s : State) : Nat := s.i.toNat

/-- `I + V[x]` before it is stored (43_index_memory.md rule R181). -/
def indexSum (x : Nibble) (s : State) : Nat := s.i.toNat + (s.reg x).toNat

/-- `V[x] * 5`, the address of a glyph, `GLYPH_LEN = 5`, with no masking and no reduction, at most 1275
(43_index_memory.md rule R182). -/
def glyphAddr (x : Nibble) (s : State) : Word := BitVec.ofNat 16 ((s.reg x).toNat * 5)

/-- The registers `0..=x`, ascending (43_index_memory.md rules R184, R185). -/
def regsUpTo (x : Nibble) : List Nibble := (List.range (x.val + 1)).map (Fin.ofNat 16)

/-- The bytes of `V[0]` to `V[x]` (R184). -/
def dumpBytes (x : Nibble) (s : State) : List Byte := (regsUpTo x).map s.reg

/-- Hundreds, tens and ones of a byte (43_index_memory.md rule R183). -/
def bcdDigits (b : Byte) : List Byte :=
  [BitVec.ofNat 8 (b.toNat / 100), BitVec.ofNat 8 (b.toNat / 10 % 10), BitVec.ofNat 8 (b.toNat % 10)]

/-- The BCD routine called standalone, with its defensive check (R183, 60_exceptions.md rule R248). -/
def bcdRoutine (value : Int) : Except Fault (List Byte) :=
  if 0 ≤ value ∧ value ≤ 255 then .ok (bcdDigits (BitVec.ofNat 8 value.toNat)) else .error .invalidValue

/-- The eight bits of a sprite row, bit position 0 the most significant: `(v >> (7 - b)) & 1`
(44_display.md rule R201). -/
def rowBits (v : Byte) : List Bool := (List.range 8).map fun b => v.getLsbD (7 - b)

/-- `decodeRowBits` called standalone, with its rejection (R201, 60_exceptions.md rule R248). -/
def decodeRowBits (value : Int) : Except Fault (List Bool) :=
  if 0 ≤ value ∧ value ≤ 255 then .ok (rowBits (BitVec.ofNat 8 value.toNat)) else .error .invalidValue

end Sys2Proof.Machine
end

