-- ==== Sys2Proof/Machine/Flags.lean ====
section
/-! DEFINITION. The flag computations (10_state.md rule R23): `VF` is overwritten as a whole byte with
0 or 1, after the result (42_alu.md rule R173). -/

namespace Sys2Proof.Machine

/-- The byte a flag is reported as. -/
def flagByte (b : Bool) : Byte := if b then 1#8 else 0#8

/-- `VF <- (1 if b else 0)`. -/
def State.setFlag (s : State) (b : Bool) : State := s.setReg regF (flagByte b)

/-- Carry of `a + b` (42_alu.md rule R167). -/
def carryOut (a b : Byte) : Bool := decide (256 ≤ a.toNat + b.toNat)

/-- No borrow in `a - b` (R168, R170). -/
def noBorrow (a b : Byte) : Bool := decide (b.toNat ≤ a.toNat)

/-- The bit SHR shifts out (R169). -/
def lowBit (a : Byte) : Bool := a.getLsbD 0

/-- The bit SHL shifts out (R171). -/
def highBit (a : Byte) : Bool := a.getLsbD 7

/-- Overflow of a 12-bit index sum (43_index_memory.md rule R181). -/
def indexOverflow (sum : Nat) : Bool := decide (0xFFF < sum)

/-- Result, then flag, then the program counter: the end of a flag-writing instruction (R173). -/
def completedWithFlag (x : Nibble) (result : Byte) (flag : Bool) (s : State) : Result :=
  completed ((s.setReg x result).setFlag flag)

end Sys2Proof.Machine
end

