-- ==== Sys2Proof/Machine/Alu.lean ====
section
/-! DEFINITION. Register, arithmetic, logic, shift and random instructions (42_alu.md). -/

namespace Sys2Proof.Machine

/-- LD Vx, byte (R161). -/
def execLdByte (x : Nibble) (kk : Byte) (s : State) : Result := completed (s.setReg x kk)

/-- ADD Vx, byte (R162): no flag. -/
def execAddByte (x : Nibble) (kk : Byte) (s : State) : Result := completed (s.setReg x (s.reg x + kk))

/-- LD Vx, Vy (R163). -/
def execLdReg (x y : Nibble) (s : State) : Result := completed (s.setReg x (s.reg y))

/-- OR Vx, Vy (R164): no flag. -/
def execOrReg (x y : Nibble) (s : State) : Result := completed (s.setReg x (s.reg x ||| s.reg y))

/-- AND Vx, Vy (R165): no flag. -/
def execAndReg (x y : Nibble) (s : State) : Result := completed (s.setReg x (s.reg x &&& s.reg y))

/-- XOR Vx, Vy (R166): no flag. -/
def execXorReg (x y : Nibble) (s : State) : Result := completed (s.setReg x (s.reg x ^^^ s.reg y))

/-- ADD Vx, Vy (R167). -/
def execAddReg (x y : Nibble) (s : State) : Result :=
  let (a, b) := regPair x y s
  completedWithFlag x (a + b) (carryOut a b) s

/-- SUB Vx, Vy (R168). -/
def execSubReg (x y : Nibble) (s : State) : Result :=
  let (a, b) := regPair x y s
  completedWithFlag x (a - b) (noBorrow a b) s

/-- SHR Vx, Vy (R169). -/
def execShr (x y : Nibble) (s : State) : Result :=
  let src := shiftSource x y s
  completedWithFlag x (src >>> 1) (lowBit src) s

/-- SUBN Vx, Vy (R170). -/
def execSubn (x y : Nibble) (s : State) : Result :=
  let (a, b) := regPair x y s
  completedWithFlag x (b - a) (noBorrow b a) s

/-- SHL Vx, Vy (R171). -/
def execShl (x y : Nibble) (s : State) : Result :=
  let src := shiftSource x y s
  completedWithFlag x (src <<< 1) (highBit src) s

/-- RND Vx, byte (R172): the next free byte, masked. -/
def execRnd (x : Nibble) (kk : Byte) (s : State) : Result :=
  completed ((s.setReg x (Config.rnd s.draws &&& kk)).setDraws (s.draws + 1))

end Sys2Proof.Machine
end

