-- ==== Sys2Proof/Machine/ControlFlow.lean ====
section
/-! DEFINITION. Control transfer (41_control_flow.md): SYS, RET, JP, CALL, the four register skips
and JP V0. -/

namespace Sys2Proof.Machine

/-- SYS addr (R140): no handler, so IllegalOpcode of the word itself, always. -/
def execSys (nnn : Addr12) (s : State) : Result := raiseIllegal (encode (.sys nnn)) s

/-- RET (R141). -/
def execRet (s : State) : Result :=
  match popStack s with
  | .error f => raise f s
  | .ok (target, t) => .next (t.setPc target)

/-- JP addr (R142). -/
def execJp (nnn : Addr12) (s : State) : Result := .next (s.setPc (absoluteAddr nnn))

/-- CALL addr (R143): push `(PC + 2) mod 4096`, then jump. -/
def execCall (nnn : Addr12) (s : State) : Result :=
  match pushStack (s.pcPlus 2) s with
  | .error f => raise f s
  | .ok t => .next (t.setPc (absoluteAddr nnn))

/-- SE Vx, byte (R144). -/
def execSeByte (x : Nibble) (kk : Byte) (s : State) : Result := skipIf (s.reg x == kk) s

/-- SNE Vx, byte (R145). -/
def execSneByte (x : Nibble) (kk : Byte) (s : State) : Result := skipIf (s.reg x != kk) s

/-- SE Vx, Vy (R146). -/
def execSeReg (x y : Nibble) (s : State) : Result := skipIf (s.reg x == s.reg y) s

/-- SNE Vx, Vy (R147). -/
def execSneReg (x y : Nibble) (s : State) : Result := skipIf (s.reg x != s.reg y) s

/-- JP V0, addr (R148). -/
def execJpV0 (nnn : Addr12) (s : State) : Result := .next (s.setPc (offsetAddr nnn s))

end Sys2Proof.Machine
end

