-- ==== Sys2Proof/Machine/Display.lean ====
section
/-! DEFINITION. The display component and its two instructions (44_display.md). Every coordinate an
instruction uses is wrapped, so no pixel outside the grid is reached (R200). -/

namespace Sys2Proof.Machine

/-- The pixel in column `x` of row `y`, `FB[y][x]` (10_state.md rule R29). -/
def pixel (d : Display) (x : Fin 64) (y : Fin 32) : Bool := d[y.val][x.val]

/-- `FB[y][x] <- bit`. -/
def putPixel (d : Display) (x : Fin 64) (y : Fin 32) (bit : Bool) : Display :=
  d.set y.val (d[y.val].set x.val bit)

/-- `clear()`: every pixel 0 (R205). -/
def clearDisplay : Display := Vector.replicate 32 (Vector.replicate 64 false)

/-- `setPixel(x, y, bit)` with its coordinate error, here `none`; no instruction uses it (R205,
60_exceptions.md rule R249). -/
def setPixel (d : Display) (x y : Nat) (bit : Bool) : Option Display :=
  if h : x < 64 ∧ y < 32 then some (putPixel d ⟨x, h.1⟩ ⟨y, h.2⟩ bit) else none

/-- One pixel of a sprite: XOR, and the collision is recorded when a lit pixel meets a 1 bit (R202). -/
def xorPixel (px : Fin 64) (py : Fin 32) (bit : Bool) (dc : Display × Bool) : Display × Bool :=
  (putPixel dc.1 px py (pixel dc.1 px py ^^ bit), dc.2 || (pixel dc.1 px py && bit))

/-- The inner loop of `drawSprite`: bit positions `b`, `b + 1`, ... of one row at display row `py`. -/
def drawBits (x0 : Nat) (py : Fin 32) : Nat → List Bool → Display × Bool → Display × Bool
  | _, [], dc => dc
  | b, bit :: bits, dc =>
    drawBits x0 py (b + 1) bits (xorPixel (Fin.ofNat 64 (x0 + b)) py bit dc)

/-- The outer loop of `drawSprite`: sprite rows `r`, `r + 1`, .... -/
def drawRows (x0 y0 : Nat) : Nat → List Byte → Display × Bool → Display × Bool
  | _, [], dc => dc
  | r, row :: rows, dc =>
    drawRows x0 y0 (r + 1) rows (drawBits x0 (Fin.ofNat 32 (y0 + r)) 0 (rowBits row) dc)

/-- `drawSprite(x0, y0, rows)`: the new display and whether any pixel collided (R202). -/
def drawSprite (d : Display) (x0 y0 : Nat) (rows : List Byte) : Display × Bool :=
  drawRows x0 y0 0 rows (d, false)

/-- CLS (R203). -/
def execCls (s : State) : Result := completed (s.setFb clearDisplay)

/-- DRW Vx, Vy, nibble (R204): the sprite is fetched whole, or the step faults with nothing changed. -/
def execDrw (x y n : Nibble) (s : State) : Result :=
  match memReadSlice (indexBase s) n.val s with
  | .error f => raise f s
  | .ok rows =>
    let dc := drawSprite s.fb (s.reg x).toNat (s.reg y).toNat rows
    completed ((s.setFb dc.1).setFlag dc.2)

end Sys2Proof.Machine
end

