-- ==== Sys2Proof/Machine/IndexMemory.lean ====
section
/-! DEFINITION. Index-register and memory instructions (43_index_memory.md). -/

namespace Sys2Proof.Machine

/-- LD I, addr (R180). -/
def execLdI (nnn : Addr12) (s : State) : Result := completed (s.setI (absoluteAddr nnn))

/-- ADD I, Vx under either value of `ADDI_SETS_FLAG` (R181): the sum is taken before the flag is
written (42_alu.md rule R173). -/
def addIndexWith (setsFlag : Bool) (x : Nibble) (s : State) : Result :=
  let sum := indexSum x s
  let t := s.setI (wrapAddr sum)
  completed (if setsFlag then t.setFlag (indexOverflow sum) else t)

/-- ADD I, Vx of this machine (R181). Log entry 3. -/
def execAddI (x : Nibble) (s : State) : Result := addIndexWith Config.addiSetsFlag x s

/-- LD F, Vx (R182). -/
def execLdF (x : Nibble) (s : State) : Result := completed (s.setI (glyphAddr x s))

/-- LD B, Vx (R183). -/
def execLdB (x : Nibble) (s : State) : Result :=
  finishTransfer (writeBytes (indexBase s) (bcdDigits (s.reg x)) s)

/-- LD [I], Vx (R184). -/
def execLdMemVx (x : Nibble) (s : State) : Result :=
  finishTransfer (writeBytes (indexBase s) (dumpBytes x s) s)

/-- LD Vx, [I] (R185). -/
def execLdVxMem (x : Nibble) (s : State) : Result :=
  finishTransfer (readRegs (indexBase s) (regsUpTo x) s)

end Sys2Proof.Machine
end

