-- ==== Sys2Proof/Machine/TimersKeys.lean ====
section
/-! DEFINITION. Timer and key instructions (45_timers_keys.md). -/

namespace Sys2Proof.Machine

/-- LD Vx, DT (R215). -/
def execLdVxDt (x : Nibble) (s : State) : Result := completed (s.setReg x s.dt)

/-- LD DT, Vx (R216). -/
def execLdDtVx (x : Nibble) (s : State) : Result := completed (s.setDt (s.reg x))

/-- LD ST, Vx (R217). -/
def execLdStVx (x : Nibble) (s : State) : Result := completed (s.setSt (s.reg x))

/-- SKP Vx (R218); the key stays latched. -/
def execSkp (x : Nibble) (s : State) : Result := skipIf (keyIs (s.reg x) s) s

/-- SKNP Vx (R219); the key stays latched. -/
def execSknp (x : Nibble) (s : State) : Result := skipIf (!keyIs (s.reg x) s) s

/-- LD Vx, K (R220): consume the pressed key, or enter WaitingForKey with `PC` unchanged. -/
def execLdVxK (x : Nibble) (s : State) : Result :=
  match s.pressed with
  | some k => completed (s.takeKey x k)
  | none => .next (s.enterWait x)

end Sys2Proof.Machine
end

