-- ==== Sys2Proof/Machine/Step.lean ====
section
/-! DEFINITION. One `step()` event (40_step_cycle.md rule R121) and the placing of an instruction
where the next step fetches it. -/

namespace Sys2Proof.Machine

/-- `step()` (R121): a latched fault is reported again; a wait goes on or ends; otherwise one
instruction is fetched, decoded and executed. -/
def step (s : State) : Host.Outcome State Fault Refusal :=
  match s.faulted with
  | some f => stepFaulted f s
  | none =>
    if s.waiting then stepWaiting s
    else
      match fetch s with
      | .error f => raise f s
      | .ok w =>
        match decodeWord w with
        | .unrecognized u => raiseIllegal u s
        | .instr i => exec i s

/-- `s` about to run the instruction `w` of the opcode table: its word at `PC`, Running, no fault
latched. It stands for the host's `loadProgram` (70_reset_and_hazards.md rule R284). Log entry 20. -/
def State.withFetchWord (s : State) (nbits w : Nat) : State :=
  { s.placeWord (tableWord nbits w) with waiting := false, faulted := none }

end Sys2Proof.Machine
end

