-- ==== Sys2Proof/Machine/System.lean ====
section
/-! DEFINITION. The events of the host and the observers (60_exceptions.md rules R262 to R271,
70_reset_and_hazards.md rules R280 to R287), and runs of any sequence of events (40_step_cycle.md
rule R120). -/

namespace Sys2Proof.Machine

/-- A saturating countdown by one (60_exceptions.md rule R262). -/
def countDown (b : Byte) : Byte := if 0 < b.toNat then b - 1#8 else b

/-- `tickTimers()` (R262): acts alike in Running, WaitingForKey and faulted states. -/
def tickTimers (s : State) : State := (s.setDt (countDown s.dt)).setSt (countDown s.st)

/-- `setKey(code)` (R265): the key replaces whatever was recorded. -/
def setKey (code : Nibble) (s : State) : State := s.setPressed (some code)

/-- `clearKey(code)` (R266): only the recorded key is released. -/
def clearKey (code : Nibble) (s : State) : State :=
  if s.pressed = some code then s.setPressed none else s

/-- The forced clear of the wait flag (R267). -/
def forceClearWait (s : State) : State := s.setWaiting false

/-- `reset()` (70_reset_and_hazards.md rules R280, R281): everything but memory outside the font block
and the model's count of random draws goes to its reset value. -/
def resetEvent (s : State) : State :=
  { State.reset with mem := Memory.putAll s.mem 0 Config.font, draws := s.draws }

/-- `loadProgram(bytes)` (R283). -/
def loadProgram (bytes : List Byte) (s : State) : Except Fault State := loadBytes progBase bytes s

/-- A load during a wait that changes the instruction at `PC`, which the host must not issue
(R287, 93_implementation_defined.md row 26). -/
def rewritesWaitInstruction (s t : State) : Bool :=
  s.waiting && (Memory.byte t.mem s.pc.toNat != Memory.byte s.mem s.pc.toNat ||
    Memory.byte t.mem (s.pc.toNat + 1) != Memory.byte s.mem (s.pc.toNat + 1))

/-- `framebuffer()` (R268). -/
def framebuffer (s : State) : Display := s.fb

/-- `soundActive()` (R269). -/
def soundActive (s : State) : Bool := decide (0 < s.st.toNat)

/-- `delayValue()` (R270). -/
def delayValue (s : State) : Byte := s.dt

/-- The events that change the core (40_step_cycle.md rule R120). -/
inductive Event where
  | step
  | tickTimers
  | setKey (code : Nat)
  | clearKey (code : Nat)
  | forceClearWait
  | reset
  | loadProgram (bytes : List Byte)
  deriving DecidableEq, Repr

/-- What an event reports to the host (40_step_cycle.md rule R124, 60_exceptions.md rule R241). -/
inductive Report where
  | ok
  | fault (f : Fault)
  | refused (r : Refusal)
  deriving DecidableEq, Repr

/-- The outcome of a step that reached the state `t`: the fault it latched, if it latched one. -/
def reportOf (t : State) : Report :=
  match t.faulted with
  | some f => .fault f
  | none => .ok

/-- A `step()` event: the state after it and its outcome (40_step_cycle.md rules R121, R124). -/
def stepEvent (s : State) : State × Report :=
  match step s with
  | .next t => (t, reportOf t)
  | .fault f => (s, .fault f)
  | .refused r => (s, .refused r)

/-- A key event: a code outside 0 to 15 is refused (60_exceptions.md rule R265, D33). -/
def keyEvent (event : Nibble → State → State) (code : Nat) (s : State) : State × Report :=
  if h : code < 16 then (event ⟨code, h⟩ s, .ok) else (s, .refused (.keyCodeOutOfDomain code))

/-- A `loadProgram(bytes)` event: a failing load changes nothing and does not touch `faulted`
(60_exceptions.md rule R241). -/
def loadEvent (bytes : List Byte) (s : State) : State × Report :=
  match loadProgram bytes s with
  | .error f => (s, .fault f)
  | .ok t =>
    if rewritesWaitInstruction s t then (s, .refused .loadRewritesWaitInstruction) else (t, .ok)

/-- One event, an indivisible transition (R120). An input the spec does not accept is reported as
refused and leaves the state as it was (log entry 34). -/
def applyEvent (e : Event) (s : State) : State × Report :=
  match e with
  | .step => stepEvent s
  | .tickTimers => (tickTimers s, .ok)
  | .setKey code => keyEvent setKey code s
  | .clearKey code => keyEvent clearKey code s
  | .forceClearWait => (forceClearWait s, .ok)
  | .reset => (resetEvent s, .ok)
  | .loadProgram bytes => loadEvent bytes s

/-- The state after a sequence of events, in any interleaving the host chooses (R120).
DESIGN CHOICE, safe: the spec gives an input it does not accept (a key code above 15, a load that
rewrites the waiting instruction) no behaviour and does not say what a run does after one; here the
reports are dropped and the run goes on from the unchanged state, so a refused event is a no-op of the
run. Log entry 34. -/
def runEvents : List Event → State → State
  | [], s => s
  | e :: es, s => runEvents es (applyEvent e s).1

end Sys2Proof.Machine
end

