-- ==== Sys2Proof/Safety.lean ====
section
/-! DEFINITION. The terms claims use: what a safe and a finished run is, the invariants, and the
vocabulary of frames ("what an instruction leaves unchanged"). -/

namespace Sys2Proof.Safety

open Sys2Proof.Machine

/-! ### Runs -/

/-- No fault is latched (60_exceptions.md rule R252: a faulted state is never a successful one). -/
def Safe (s : State) : Prop := s.faulted = none

/-- The core is Running and no fault is latched, so the next step fetches (40_step_cycle.md rule R121). -/
def Running (s : State) : Prop := s.waiting = false ∧ s.faulted = none

/-- The program has finished: the word at `PC` is a jump to `PC` itself (40_step_cycle.md rule R125,
92_eei_decisions.md D23). -/
def Finished (s : State) : Prop :=
  s.waiting = false ∧ s.faulted = none ∧
    memReadWord s.pc.toNat s = .ok (BitVec.ofNat 16 (0x1000 + s.pc.toNat))

/-! ### Invariants -/

/-- What every event keeps: memory in canonical form, and every address register and stack entry in
0 to 0xFFF (10_state.md rules R24, R25, R28). -/
structure Inv (s : State) : Prop where
  mem_wf : Memory.wf s.mem = true
  index_range : s.i.toNat < 4096
  pc_range : s.pc.toNat < 4096
  stack_range : ∀ k : Fin 16, s.stack[k].toNat < 4096

/-- While a wait is pending, no fault is latched and `PC` holds the LD Vx, K that started it, with
`waitReg` its register (10_state.md rules R31, R32). -/
def WaitInv (s : State) : Prop :=
  s.waiting = true →
    s.faulted = none ∧ memReadWord s.pc.toNat s = .ok (encode (.ldVxK s.waitReg))

/-! ### Encodings -/

/-- The decoder reads the word whose value is `n` as the instruction `i`. -/
def ReadsAs (n : Nat) (i : Instr) : Prop := decodeWord (BitVec.ofNat 16 n) = .instr i

/-! ### Frames -/

/-- The pieces of state besides the general registers and the program counter (10_state.md rule R20). -/
inductive Part where
  | memory | index | delay | sound | callStack | display | pressed | waiting | waitReg | fault | draws
  deriving DecidableEq, Repr

/-- A piece of state is unchanged from `s` to `t`; memory, as every read of one byte sees it. -/
def Keeps (s t : State) : Part → Prop
  | .memory => ∀ a, memRead a t = memRead a s
  | .index => t.i = s.i
  | .delay => t.dt = s.dt
  | .sound => t.st = s.st
  | .callStack => t.sp = s.sp ∧ t.stack = s.stack
  | .display => t.fb = s.fb
  | .pressed => t.pressed = s.pressed
  | .waiting => t.waiting = s.waiting
  | .waitReg => t.waitReg = s.waitReg
  | .fault => t.faulted = s.faulted
  | .draws => t.draws = s.draws

/-- Every piece of state but those named is unchanged. -/
def KeepsAllBut (changed : List Part) (s t : State) : Prop := ∀ p, p ∉ changed → Keeps s t p

/-- Every general register but those named is unchanged. -/
def KeepsRegsBut (changed : List Nibble) (s t : State) : Prop := ∀ r, r ∉ changed → t.reg r = s.reg r

/-- Every byte of memory outside the `len` bytes from `base` on reads as before. -/
def KeepsMemoryOutside (base len : Nat) (s t : State) : Prop :=
  ∀ a, a < base ∨ base + len ≤ a → memRead a t = memRead a s

/-- `PC` moved on by `k` bytes, modulo 4096 (40_step_cycle.md rule R122). -/
def MovedOn (k : Nat) (s t : State) : Prop := t.pc.toNat = (s.pc.toNat + k) % 4096

/-- The step raised the fault `f` and did nothing else (60_exceptions.md rules R241, R251). -/
def OnlyFaulted (f : Fault) (s t : State) : Prop :=
  t.faulted = some f ∧ t.pc = s.pc ∧ KeepsRegsBut [] s t ∧ KeepsAllBut [.fault] s t

/-! ### The tables of the spec over all instructions -/

/-- The general registers an instruction may write: its destination, and `VF` for the seven
instructions of 10_state.md rule R23. -/
def writtenRegs : Instr → List Nibble
  | .sys _ | .cls | .ret | .jp _ | .call _ | .seByte _ _ | .sneByte _ _ | .seReg _ _ | .sneReg _ _
  | .ldI _ | .jpV0 _ | .skp _ | .sknp _ | .ldDtVx _ | .ldStVx _ | .ldF _ | .ldB _ | .ldMemVx _ => []
  | .ldByte x _ | .addByte x _ | .ldReg x _ | .orReg x _ | .andReg x _ | .xorReg x _ | .rnd x _
  | .ldVxDt x | .ldVxK x => [x]
  | .addReg x _ | .subReg x _ | .shr x _ | .subn x _ | .shl x _ => [x, 15]
  | .addI _ | .drw _ _ _ => [15]
  | .ldVxMem x => (List.finRange 16).filter fun r => r ≤ x

/-- The pieces of state an instruction may write (the last column of 10_state.md rule R20). -/
def writtenParts : Instr → List Part
  | .sys _ => [.fault]
  | .cls => [.display]
  | .ret | .call _ => [.callStack, .fault]
  | .ldI _ | .addI _ | .ldF _ => [.index]
  | .rnd _ _ => [.draws]
  | .drw _ _ _ => [.display, .fault]
  | .ldVxK _ => [.pressed, .waiting, .waitReg]
  | .ldDtVx _ => [.delay]
  | .ldStVx _ => [.sound]
  | .ldB _ | .ldMemVx _ => [.memory, .fault]
  | .ldVxMem _ => [.fault]
  | .jp _ | .seByte _ _ | .sneByte _ _ | .seReg _ _ | .ldByte _ _ | .addByte _ _ | .ldReg _ _
  | .orReg _ _ | .andReg _ _ | .xorReg _ _ | .addReg _ _ | .subReg _ _ | .shr _ _ | .subn _ _
  | .shl _ _ | .sneReg _ _ | .jpV0 _ | .skp _ | .sknp _ | .ldVxDt _ => []

/-- The classes of the program-counter policy (40_step_cycle.md rule R122). -/
inductive PcClass where
  | setsPc | skip | wait | plain
  deriving DecidableEq, Repr

/-- The class of an instruction with a handler (R122); SYS has none and is in the fault class. -/
def pcClass : Instr → PcClass
  | .jp _ | .call _ | .ret | .jpV0 _ => .setsPc
  | .seByte _ _ | .sneByte _ _ | .seReg _ _ | .sneReg _ _ | .skp _ | .sknp _ => .skip
  | .ldVxK _ => .wait
  | .sys _ | .cls | .ldByte _ _ | .addByte _ _ | .ldReg _ _ | .orReg _ _ | .andReg _ _ | .xorReg _ _
  | .addReg _ _ | .subReg _ _ | .shr _ _ | .subn _ _ | .shl _ _ | .ldI _ | .rnd _ _ | .drw _ _ _
  | .ldVxDt _ | .ldDtVx _ | .ldStVx _ | .addI _ | .ldF _ | .ldB _ | .ldMemVx _ | .ldVxMem _ => .plain

/-- After an instruction that sets `PC`, `PC` is its target with no increment: `nnn`, `nnn + V[0]` modulo
4096, or the entry RET popped, the one at `SP - 1` (40_step_cycle.md rule R122, 41_control_flow.md
rules R141 to R143, R148). Nothing is said of the other instructions. -/
def JumpedTo (i : Instr) (s t : State) : Prop :=
  (∀ nnn, i = .jp nnn ∨ i = .call nnn → t.pc.toNat = nnn.toNat) ∧
  (∀ nnn, i = .jpV0 nnn → t.pc.toNat = (nnn.toNat + (s.reg 0).toNat) % 4096) ∧
  (i = .ret → ∃ k : Fin 16, s.sp.val = k.val + 1 ∧ t.pc = s.stack[k])

/-- The words with no tag, listed as 30_encoding.md rule R95 lists them (SYS, which has a tag, apart). -/
def UntaggedWord (n : Nat) : Prop :=
  (n / 0x1000 = 0x5 ∧ n % 0x10 ≠ 0) ∨
  (n / 0x1000 = 0x8 ∧ n % 0x10 ∈ [0x8, 0x9, 0xA, 0xB, 0xC, 0xD, 0xF]) ∨
  (n / 0x1000 = 0x9 ∧ n % 0x10 ≠ 0) ∨
  (n / 0x1000 = 0xE ∧ n % 0x100 ∉ [0x9E, 0xA1]) ∨
  (n / 0x1000 = 0xF ∧ n % 0x100 ∉ [0x07, 0x0A, 0x15, 0x18, 0x1E, 0x29, 0x33, 0x55, 0x65])

/-! ### Sprites -/

/-- The sprite `rows` at `(x0, y0)` has a 1 bit at the pixel `(px, py)`: row `r`, bit position `b`
(0 the most significant) at `((x0 + b) mod 64, (y0 + r) mod 32)` (44_display.md rule R202). -/
def SpriteBit (x0 y0 : Nat) (rows : List Byte) (px : Fin 64) (py : Fin 32) : Prop :=
  ∃ r b, ∃ h : r < rows.length, b < 8 ∧ (rows[r].toNat >>> (7 - b)) % 2 = 1 ∧
    px.val = (x0 + b) % 64 ∧ py.val = (y0 + r) % 32

end Sys2Proof.Safety
end

