-- ==== Sys2Proof/Certificates/Slice0/Obligations.lean ====
section
/-! DEFINITION. The statements for the provers. Each docstring names the rule of spec/ it formalises;
where a clause rests on a decision of the spec or of the model, the docstring says so. -/

open Sys2Proof Sys2Proof.Machine Sys2Proof.Safety

/-! ### Encoding (30_encoding.md) -/

/-- The four words the source itself gives (95_test_vectors.md section 1.1) and eight words of section
2.1, among them CLS, RET, SYS and words of families 2, 9, C, E and F. Those eight rest on the presumed
opcode map (PRESUMED, log entry 8). -/
def Obligations.SampleWordsDecode : Prop :=
  ReadsAs 0xA123 (.ldI 0x123#12) ∧ ReadsAs 0x8AB0 (.ldReg 0xA 0xB) ∧ ReadsAs 0xD123 (.drw 1 2 3) ∧
  ReadsAs 0xFD07 (.ldVxDt 0xD) ∧ ReadsAs 0x00E0 .cls ∧ ReadsAs 0x00EE .ret ∧
  ReadsAs 0x0123 (.sys 0x123#12) ∧ ReadsAs 0x2ABC (.call 0xABC#12) ∧ ReadsAs 0x9AB0 (.sneReg 0xA 0xB) ∧
  ReadsAs 0xCA12 (.rnd 0xA 0x12#8) ∧ ReadsAs 0xEAA1 (.sknp 0xA) ∧ ReadsAs 0xFA65 (.ldVxMem 0xA)

/-- Decoding the word of a well-formed instruction gives it back, operands and all (R93, R94; the
numeric patterns are log entry 8). -/
def Obligations.DecodeOfEncode : Prop :=
  ∀ i : Instr, i.wellFormed = true → decodeWord (encode i) = .instr i

/-- Every word that decodes is the word of the instruction it decodes to: no operand bit is dropped
and no two words share a meaning (R93, R94; log entry 8). -/
def Obligations.EncodeOfDecode : Prop :=
  ∀ (w : Word) (i : Instr), decodeWord w = .instr i → encode i = w ∧ i.wellFormed = true

/-- The words that fault with IllegalOpcode are exactly those of the table of R95, SYS among them, and
nothing but the latch changes when they do (R95, R245; SYS is log entry 9). -/
def Obligations.IllegalWordsAreExactlyTheListed : Prop :=
  ∀ (s : State) (w : Word), Running s → memReadWord s.pc.toNat s = .ok w →
    ((UntaggedWord w.toNat ∨ (w.toNat < 0x1000 ∧ w.toNat ≠ 0x00E0 ∧ w.toNat ≠ 0x00EE)) ↔
      ∃ t, step s = .next t ∧ OnlyFaulted (.illegalOpcode w) s t)

/-! ### The step (40_step_cycle.md) -/

/-- A step in state Running executes the instruction decoded from the two bytes at `PC`, and `step`
adds nothing around it (R121). -/
def Obligations.StepRunsTheDecodedInstruction : Prop :=
  ∀ (s : State) (w : Word) (i : Instr), Running s → memReadWord s.pc.toNat s = .ok w →
    decodeWord w = .instr i → step s = exec i s

/-- The fetch at the last address raises AddressError with that address, and nothing else changes
(R121 step 2a, 60_exceptions.md rule R243 (a); the address reported is log entry 22). -/
def Obligations.FetchAtLastAddressFaults : Prop :=
  ∀ s : State, Running s → s.pc.toNat = 0xFFF →
    ∃ t, step s = .next t ∧ OnlyFaulted (.addressError 0xFFF) s t

/-- A step in WaitingForKey: nothing without a key; with one, the key goes to the latched register, the
wait ends and `PC` moves on (R121 step 1, R123; the latch is log entry 17). -/
def Obligations.StepWhileWaiting : Prop :=
  ∀ s : State, s.faulted = none → s.waiting = true →
    (s.pressed = none → step s = .next s) ∧
    (∀ k, s.pressed = some k → ∃ t, step s = .next t ∧
      (t.reg s.waitReg).toNat = k.val ∧ t.pressed = none ∧ t.waiting = false ∧ MovedOn 2 s t ∧
      KeepsRegsBut [s.waitReg] s t ∧ KeepsAllBut [.pressed, .waiting] s t)

/-- A step returns `ok` or one of the four faults of `step()`; with a fault latched it changes nothing
and returns that fault; and no event but `reset()` clears the latch (R124, 60_exceptions.md rule R252;
the latch is the spec's decision D19, log entry 1). -/
def Obligations.StepOutcomesAndTheFaultLatch : Prop :=
  (∀ s : State, s.faulted = none →
    (stepEvent s).2 = .ok ∨ (∃ a, (stepEvent s).2 = .fault (.addressError a)) ∨
    (∃ w, (stepEvent s).2 = .fault (.illegalOpcode w)) ∨ (stepEvent s).2 = .fault .stackOverflow ∨
    (stepEvent s).2 = .fault .stackUnderflow) ∧
  (∀ (s : State) (f : Fault), s.faulted = some f → stepEvent s = (s, .fault f)) ∧
  (∀ (e : Event) (s : State) (f : Fault), e ≠ .reset → s.faulted = some f →
    (applyEvent e s).1.faulted = some f)

/-- `step` refuses nothing, and stops only on a fault latched before it (R121, R124). -/
def Obligations.StepIsTotal : Prop :=
  ∀ s : State, (∃ t, s.faulted = none ∧ step s = .next t) ∨ ∃ f, s.faulted = some f ∧ step s = .fault f

/-! ### Reset and program load (70_reset_and_hazards.md) -/

/-- What `reset()` leaves, from any state (R280): every register, the stack, the timers, the input
state, the display, the font block rewritten and the rest of memory untouched, no fault. -/
def Obligations.ResetLeaves : Prop :=
  ∀ s : State, let t := resetEvent s
    (∀ r, t.reg r = 0#8) ∧ t.sp.val = 0 ∧ (∀ k : Fin 16, t.stack[k] = 0#16) ∧
    t.pc = 0x200#16 ∧ t.i = 0x200#16 ∧ t.dt = 0#8 ∧ t.st = 0#8 ∧
    t.pressed = none ∧ t.waiting = false ∧ t.waitReg = 0 ∧
    (∀ x y, pixel t.fb x y = false) ∧ t.faulted = none ∧
    (∀ k, k < 80 → ∃ b, Config.font[k]? = some b ∧ memRead k t = .ok b) ∧
    (∀ a, 80 ≤ a → memRead a t = memRead a s)

/-- The state every run starts from is a fixed point of `reset()`: a reset after power-on changes
nothing, and its memory is the font block and the unconstrained `mem0`
(R282, 10_state.md rules R40 to R42; `mem0` is a free value, log entry 6, the font is log entry 5,
and that the count of draws is kept is the model's, log entry 7). -/
def Obligations.PowerOnStateIsAResetState : Prop :=
  resetEvent State.reset = State.reset ∧
  (∀ a, a < 80 → ∃ b, Config.font[a]? = some b ∧ memRead a State.reset = .ok b) ∧
  (∀ a, 80 ≤ a → a < 4096 → memRead a State.reset = .ok (Config.mem0 a))

/-- The reset state satisfies both invariants (10_state.md rules R24, R25, R28, R31). -/
def Obligations.ResetStateSatisfiesTheInvariants : Prop := Inv State.reset ∧ WaitInv State.reset

/-- `loadProgram(bytes)`: up to 3584 bytes are written from 0x200 on and read back exactly; a longer
program fails with MemoryOverflow before any write; nothing but memory changes either way. The load
EVENT does the same and reports `ok`, in a wait too; only a load that changes the instruction at `PC`
during a wait is refused, with nothing changed (R283, R287; failing before any write is the spec's
decision D18, log entry 21; the refusal is log entry 17). -/
def Obligations.LoadProgramRoundTrip : Prop :=
  ∀ (bytes : List Byte) (s : State),
    (bytes.length ≤ 3584 → ∃ t, loadProgram bytes s = .ok t ∧
      (∀ k, ∀ h : k < bytes.length, memRead (0x200 + k) t = .ok bytes[k]) ∧
      KeepsMemoryOutside 0x200 bytes.length s t ∧ t.pc = s.pc ∧ KeepsRegsBut [] s t ∧
      KeepsAllBut [.memory] s t ∧
      (s.waiting = false → applyEvent (.loadProgram bytes) s = (t, .ok)) ∧
      (s.waiting = true →
        memRead s.pc.toNat t = memRead s.pc.toNat s ∧
          memRead (s.pc.toNat + 1) t = memRead (s.pc.toNat + 1) s →
        applyEvent (.loadProgram bytes) s = (t, .ok)) ∧
      (s.waiting = true →
        ¬ (memRead s.pc.toNat t = memRead s.pc.toNat s ∧
          memRead (s.pc.toNat + 1) t = memRead (s.pc.toNat + 1) s) →
        applyEvent (.loadProgram bytes) s = (s, .refused .loadRewritesWaitInstruction))) ∧
    (3584 < bytes.length → loadProgram bytes s = .error .memoryOverflow ∧
      (applyEvent (.loadProgram bytes) s) = (s, .fault .memoryOverflow))

/-- Reset then load, and load then reset, give the same state, as data: the canonical form of memory
makes equal memories equal (R284). -/
def Obligations.ResetAndLoadCommute : Prop :=
  ∀ (bytes : List Byte) (s t : State), Memory.wf s.mem = true → loadProgram bytes s = .ok t →
    loadProgram bytes (resetEvent s) = .ok (resetEvent t)

/-! ### Invariants -/

/-- Every step keeps memory canonical and `I`, `PC` and the stack entries in 0 to 0xFFF
(10_state.md rules R24, R25, R28; the wrap of `PC` is log entry 14). -/
def Obligations.EveryStepKeepsInv : Prop :=
  ∀ s t : State, Inv s → step s = .next t → Inv t

/-- So does every run of host events, in any interleaving (40_step_cycle.md rule R120). -/
def Obligations.EveryRunOfEventsKeepsInv : Prop :=
  ∀ (es : List Event) (s : State), Inv s → Inv (runEvents es s)

/-- While a wait is pending `PC` stays at the LD Vx, K that started it and no fault is latched,
along every run of events (10_state.md rules R31, R32, 70_reset_and_hazards.md rule R287; the latches
are log entries 1 and 17, and that a refused event is a no-op of the run is log entry 34). -/
def Obligations.EveryRunOfEventsKeepsWaitInv : Prop :=
  ∀ (es : List Event) (s : State), WaitInv s → WaitInv (runEvents es s)

/-! ### Memory (20_memory.md) -/

/-- The byte primitives: an address above 0xFFF raises AddressError with that address; below it, a
read gives the byte, and a write is read back and leaves everything else alone (R61, R62). -/
def Obligations.ByteAccess : Prop :=
  ∀ (a : Nat) (b : Byte) (s : State),
    (4096 ≤ a → memRead a s = .error (.addressError a) ∧ memWrite a b s = .error (.addressError a)) ∧
    (a < 4096 → (∃ c, memRead a s = .ok c) ∧ ∃ t, memWrite a b s = .ok t ∧ memRead a t = .ok b ∧
      KeepsMemoryOutside a 1 s t ∧ t.pc = s.pc ∧ KeepsRegsBut [] s t ∧ KeepsAllBut [.memory] s t)

/-- The word read is big-endian and does not wrap at the top of memory (R63; the address reported is
log entry 22). -/
def Obligations.WordReadIsBigEndian : Prop :=
  ∀ (a : Nat) (s : State),
    (a + 1 < 4096 → ∃ hi lo w, memRead a s = .ok hi ∧ memRead (a + 1) s = .ok lo ∧
      memReadWord a s = .ok w ∧ w.toNat = hi.toNat * 256 + lo.toNat) ∧
    (4096 ≤ a + 1 → memReadWord a s = .error (.addressError a))

/-- The slice read, under either value of `SLICE_TOUCH_FAULTS`; this machine takes `false`
(R66; the default is the spec's decision D21, log entry 4). -/
def Obligations.SliceRead : Prop :=
  (∀ (touch : Bool) (a len : Nat) (s : State),
    (4096 < a + len ∨ (touch = true ∧ 0 < len ∧ a + len = 4096) →
      memReadSliceWith touch a len s = .error (.addressError a)) ∧
    (a + len < 4096 ∨ (a + len = 4096 ∧ (touch = false ∨ len = 0)) →
      ∃ bytes : List Byte, memReadSliceWith touch a len s = .ok bytes ∧ bytes.length = len ∧
        ∀ k, ∀ h : k < bytes.length, memRead (a + k) s = .ok bytes[k])) ∧
  (∀ a len s, memReadSlice a len s = memReadSliceWith false a len s)

/-! ### Control transfer (41_control_flow.md) -/

/-- SYS addr is its own word's IllegalOpcode, always, and nothing else (R140; log entry 9). -/
def Obligations.SysRaisesIllegalOpcode : Prop :=
  ∀ (nnn : Addr12) (s : State),
    (nnn.toNat ≠ 0x0E0 ∧ nnn.toNat ≠ 0x0EE → ReadsAs nnn.toNat (.sys nnn)) ∧
    ∃ t, exec (.sys nnn) s = .next t ∧ OnlyFaulted (.illegalOpcode (BitVec.ofNat 16 nnn.toNat)) s t

/-- JP addr and JP V0, addr set `PC` and change nothing else (R142, R148; the implicit `V[0]` is log
entry 13, the reduction modulo 4096 log entry 14, the numbers log entry 8). -/
def Obligations.JumpsSetPc : Prop :=
  ∀ (nnn : Addr12) (s : State),
    ReadsAs (0x1000 + nnn.toNat) (.jp nnn) ∧ ReadsAs (0xB000 + nnn.toNat) (.jpV0 nnn) ∧
    (∃ t, exec (.jp nnn) s = .next t ∧ t.pc.toNat = nnn.toNat ∧
      KeepsRegsBut [] s t ∧ KeepsAllBut [] s t) ∧
    (∃ t, exec (.jpV0 nnn) s = .next t ∧ t.pc.toNat = (nnn.toNat + (s.reg 0).toNat) % 4096 ∧
      KeepsRegsBut [] s t ∧ KeepsAllBut [] s t)

/-- CALL addr pushes the address after itself and jumps (R143; the reduction of the pushed value is log
entry 14). -/
def Obligations.CallPushesAndJumps : Prop :=
  ∀ (nnn : Addr12) (s : State), ReadsAs (0x2000 + nnn.toNat) (.call nnn) ∧
    ∀ h : s.sp.val < 16, ∃ t, exec (.call nnn) s = .next t ∧ t.pc.toNat = nnn.toNat ∧
      t.sp.val = s.sp.val + 1 ∧ t.stack[s.sp.val].toNat = (s.pc.toNat + 2) % 4096 ∧
      (∀ k : Fin 16, k.val ≠ s.sp.val → t.stack[k] = s.stack[k]) ∧
      KeepsRegsBut [] s t ∧ KeepsAllBut [.callStack] s t

/-- RET pops the newest entry into `PC`; the slots keep their contents (R141). -/
def Obligations.RetPopsIntoPc : Prop :=
  ReadsAs 0x00EE .ret ∧
  ∀ (s : State) (k : Fin 16), s.sp.val = k.val + 1 →
    ∃ t, exec .ret s = .next t ∧ t.pc = s.stack[k] ∧ t.sp.val = k.val ∧ t.stack = s.stack ∧
      KeepsRegsBut [] s t ∧ KeepsAllBut [.callStack] s t

/-- CALL with 16 entries raises StackOverflow, RET with none raises StackUnderflow, and nothing else
has changed (60_exceptions.md rules R246, R247). -/
def Obligations.StackFaultsChangeNothing : Prop :=
  (∀ (nnn : Addr12) (s : State), s.sp.val = 16 →
    ∃ t, exec (.call nnn) s = .next t ∧ OnlyFaulted .stackOverflow s t) ∧
  (∀ s : State, s.sp.val = 0 → ∃ t, exec .ret s = .next t ∧ OnlyFaulted .stackUnderflow s t)

/-- A RET executed in the state a CALL leaves comes back to the instruction after the CALL, with every
slot but the pushed one, now stale, as it was (R141, R143, 10_state.md rule R28; the reduction modulo
4096 is log entry 14, the slots are log entry 23). -/
def Obligations.CallThenReturn : Prop :=
  ∀ (nnn : Addr12) (s : State), s.sp.val < 16 →
    ∃ t u, exec (.call nnn) s = .next t ∧ exec .ret t = .next u ∧
      u.pc.toNat = (s.pc.toNat + 2) % 4096 ∧ u.sp = s.sp ∧
      (∀ k : Fin 16, k.val ≠ s.sp.val → u.stack[k] = s.stack[k]) ∧
      KeepsRegsBut [] s u ∧ KeepsAllBut [.callStack] s u

/-- The four register skips: 4 bytes on when the condition holds, 2 when it does not, nothing else
(R144 to R147; the numbers are log entry 8, the reduction log entry 14, the reading of the names log
entry 31). -/
def Obligations.RegisterSkips : Prop :=
  ∀ (x y : Nibble) (kk : Byte) (s : State),
    ReadsAs (0x3000 + 0x100 * x.val + kk.toNat) (.seByte x kk) ∧
    ReadsAs (0x4000 + 0x100 * x.val + kk.toNat) (.sneByte x kk) ∧
    ReadsAs (0x5000 + 0x100 * x.val + 0x10 * y.val) (.seReg x y) ∧
    ReadsAs (0x9000 + 0x100 * x.val + 0x10 * y.val) (.sneReg x y) ∧
    (∃ t, exec (.seByte x kk) s = .next t ∧ MovedOn (if s.reg x = kk then 4 else 2) s t ∧
      KeepsRegsBut [] s t ∧ KeepsAllBut [] s t) ∧
    (∃ t, exec (.sneByte x kk) s = .next t ∧ MovedOn (if s.reg x = kk then 2 else 4) s t ∧
      KeepsRegsBut [] s t ∧ KeepsAllBut [] s t) ∧
    (∃ t, exec (.seReg x y) s = .next t ∧ MovedOn (if s.reg x = s.reg y then 4 else 2) s t ∧
      KeepsRegsBut [] s t ∧ KeepsAllBut [] s t) ∧
    (∃ t, exec (.sneReg x y) s = .next t ∧ MovedOn (if s.reg x = s.reg y then 2 else 4) s t ∧
      KeepsRegsBut [] s t ∧ KeepsAllBut [] s t)

/-! ### Registers and arithmetic (42_alu.md) -/

/-- LD Vx, byte (R161; the number is log entry 8, the reading of the name log entry 31). -/
def Obligations.LoadImmediate : Prop :=
  ∀ (x : Nibble) (kk : Byte) (s : State),
    ReadsAs (0x6000 + 0x100 * x.val + kk.toNat) (.ldByte x kk) ∧
    ∃ t, exec (.ldByte x kk) s = .next t ∧ t.reg x = kk ∧ MovedOn 2 s t ∧
      KeepsRegsBut [x] s t ∧ KeepsAllBut [] s t

/-- ADD Vx, byte: the sum modulo 256, and `VF` is not written unless it is the destination (R162). -/
def Obligations.AddImmediate : Prop :=
  ∀ (x : Nibble) (kk : Byte) (s : State),
    ReadsAs (0x7000 + 0x100 * x.val + kk.toNat) (.addByte x kk) ∧
    ∃ t, exec (.addByte x kk) s = .next t ∧ (t.reg x).toNat = ((s.reg x).toNat + kk.toNat) % 256 ∧
      MovedOn 2 s t ∧ KeepsRegsBut [x] s t ∧ KeepsAllBut [] s t

/-- LD Vx, Vy, with the encoding the source confirms (R163; that the name means this is read off it:
PRESUMED, log entry 31; the reduction of `PC` is log entry 14). -/
def Obligations.CopyRegister : Prop :=
  ∀ (x y : Nibble) (s : State),
    ReadsAs (0x8000 + 0x100 * x.val + 0x10 * y.val) (.ldReg x y) ∧
    ∃ t, exec (.ldReg x y) s = .next t ∧ t.reg x = s.reg y ∧ MovedOn 2 s t ∧
      KeepsRegsBut [x] s t ∧ KeepsAllBut [] s t

/-- OR, AND, XOR: bitwise, into `V[x]`, `VF` not written unless it is the destination
(R164 to R166; that `VF` is not written is log entry 11, which operations they are log entry 31). -/
def Obligations.LogicOperations : Prop :=
  ∀ (x y : Nibble) (s : State),
    ReadsAs (0x8001 + 0x100 * x.val + 0x10 * y.val) (.orReg x y) ∧
    ReadsAs (0x8002 + 0x100 * x.val + 0x10 * y.val) (.andReg x y) ∧
    ReadsAs (0x8003 + 0x100 * x.val + 0x10 * y.val) (.xorReg x y) ∧
    (∃ t, exec (.orReg x y) s = .next t ∧ (t.reg x).toNat = (s.reg x).toNat ||| (s.reg y).toNat ∧
      MovedOn 2 s t ∧ KeepsRegsBut [x] s t ∧ KeepsAllBut [] s t) ∧
    (∃ t, exec (.andReg x y) s = .next t ∧ (t.reg x).toNat = (s.reg x).toNat &&& (s.reg y).toNat ∧
      MovedOn 2 s t ∧ KeepsRegsBut [x] s t ∧ KeepsAllBut [] s t) ∧
    (∃ t, exec (.xorReg x y) s = .next t ∧ (t.reg x).toNat = (s.reg x).toNat ^^^ (s.reg y).toNat ∧
      MovedOn 2 s t ∧ KeepsRegsBut [x] s t ∧ KeepsAllBut [] s t)

/-- ADD Vx, Vy: the sum modulo 256, then the carry into `VF`, which survives when `x = 15`
(R167, R173; the order is log entry 10). -/
def Obligations.AddRegisters : Prop :=
  ∀ (x y : Nibble) (s : State),
    ReadsAs (0x8004 + 0x100 * x.val + 0x10 * y.val) (.addReg x y) ∧
    ∃ t, exec (.addReg x y) s = .next t ∧
      (x ≠ 15 → (t.reg x).toNat = ((s.reg x).toNat + (s.reg y).toNat) % 256) ∧
      (t.reg 15).toNat = (if 256 ≤ (s.reg x).toNat + (s.reg y).toNat then 1 else 0) ∧
      MovedOn 2 s t ∧ KeepsRegsBut [x, 15] s t ∧ KeepsAllBut [] s t

/-- SUB and SUBN: the difference modulo 256, then 1 into `VF` when there was no borrow, which survives
when `x = 15` (R168, R170, R173; the order is log entry 10). -/
def Obligations.SubtractRegisters : Prop :=
  ∀ (x y : Nibble) (s : State),
    ReadsAs (0x8005 + 0x100 * x.val + 0x10 * y.val) (.subReg x y) ∧
    ReadsAs (0x8007 + 0x100 * x.val + 0x10 * y.val) (.subn x y) ∧
    (∃ t, exec (.subReg x y) s = .next t ∧
      (x ≠ 15 → ((t.reg x).toNat : Int) = (((s.reg x).toNat : Int) - (s.reg y).toNat) % 256) ∧
      (t.reg 15).toNat = (if (s.reg y).toNat ≤ (s.reg x).toNat then 1 else 0) ∧
      MovedOn 2 s t ∧ KeepsRegsBut [x, 15] s t ∧ KeepsAllBut [] s t) ∧
    (∃ t, exec (.subn x y) s = .next t ∧
      (x ≠ 15 → ((t.reg x).toNat : Int) = (((s.reg y).toNat : Int) - (s.reg x).toNat) % 256) ∧
      (t.reg 15).toNat = (if (s.reg x).toNat ≤ (s.reg y).toNat then 1 else 0) ∧
      MovedOn 2 s t ∧ KeepsRegsBut [x, 15] s t ∧ KeepsAllBut [] s t)

/-- SHR and SHL by one bit of the source register that `SHIFT_SRC` selects, for both its values; the
bit shifted out goes to `VF`, which survives when `x = 15` (R169, R171, R173; `SHIFT_SRC` is open, log
entry 2, the order is log entry 10). -/
def Obligations.Shifts : Prop :=
  ∀ (x y : Nibble) (s : State),
    ReadsAs (0x8006 + 0x100 * x.val + 0x10 * y.val) (.shr x y) ∧
    ReadsAs (0x800E + 0x100 * x.val + 0x10 * y.val) (.shl x y) ∧
    ∃ src : Byte,
      ((Config.shiftSrc = .vx ∧ src = s.reg x) ∨ (Config.shiftSrc = .vy ∧ src = s.reg y)) ∧
      (∃ t, exec (.shr x y) s = .next t ∧
        (x ≠ 15 → (t.reg x).toNat = src.toNat / 2) ∧ (t.reg 15).toNat = src.toNat % 2 ∧
        MovedOn 2 s t ∧ KeepsRegsBut [x, 15] s t ∧ KeepsAllBut [] s t) ∧
      (∃ t, exec (.shl x y) s = .next t ∧
        (x ≠ 15 → (t.reg x).toNat = src.toNat * 2 % 256) ∧ (t.reg 15).toNat = src.toNat / 128 ∧
        MovedOn 2 s t ∧ KeepsRegsBut [x, 15] s t ∧ KeepsAllBut [] s t)

/-- RND Vx, byte: a fresh free byte, masked (R172; the byte is a free value and its counter the
model's own, log entry 7; that RND is this AND is log entry 31). -/
def Obligations.RandomAndMask : Prop :=
  ∀ (x : Nibble) (kk : Byte) (s : State),
    ReadsAs (0xC000 + 0x100 * x.val + kk.toNat) (.rnd x kk) ∧
    ∃ t, exec (.rnd x kk) s = .next t ∧
      (t.reg x).toNat = (Config.rnd s.draws).toNat &&& kk.toNat ∧ t.draws = s.draws + 1 ∧
      MovedOn 2 s t ∧ KeepsRegsBut [x] s t ∧ KeepsAllBut [.draws] s t

/-! ### Index register and memory instructions (43_index_memory.md) -/

/-- LD I, addr, with the encoding the source confirms. With 0xFFF, a one-byte access at `I` succeeds
and any access at `I + 1` faults (R180; that the name means this is read off it: PRESUMED, log entry
31; the reduction of `PC` is log entry 14). -/
def Obligations.LoadIndex : Prop :=
  ∀ (nnn : Addr12) (s : State),
    ReadsAs (0xA000 + nnn.toNat) (.ldI nnn) ∧
    ∃ t, exec (.ldI nnn) s = .next t ∧ t.i.toNat = nnn.toNat ∧ MovedOn 2 s t ∧
      KeepsRegsBut [] s t ∧ KeepsAllBut [.index] s t ∧
      (nnn.toNat = 0xFFF → ∀ b, (∃ c, memRead t.i.toNat t = .ok c) ∧ (∃ u, memWrite t.i.toNat b t = .ok u) ∧
        memRead (t.i.toNat + 1) t = .error (.addressError 0x1000) ∧
        memWrite (t.i.toNat + 1) b t = .error (.addressError 0x1000))

/-- ADD I, Vx: the index wraps modulo 4096 and `VF` reports the overflow, in the default setting of
`ADDI_SETS_FLAG`, which this machine takes; in the other setting `VF` is not written
(R181; the default is the spec's decision D6, log entry 3). -/
def Obligations.AddToIndex : Prop :=
  ∀ (x : Nibble) (s : State),
    ReadsAs (0xF01E + 0x100 * x.val) (.addI x) ∧
    (∃ t, exec (.addI x) s = .next t ∧ t.i.toNat = (s.i.toNat + (s.reg x).toNat) % 4096 ∧
      (t.reg 15).toNat = (if 0xFFF < s.i.toNat + (s.reg x).toNat then 1 else 0) ∧
      MovedOn 2 s t ∧ KeepsRegsBut [15] s t ∧ KeepsAllBut [.index] s t) ∧
    (∃ t, addIndexWith false x s = .next t ∧ t.i.toNat = (s.i.toNat + (s.reg x).toNat) % 4096 ∧
      MovedOn 2 s t ∧ KeepsRegsBut [] s t ∧ KeepsAllBut [.index] s t)

/-- LD F, Vx: five times the whole register, with no masking (R182; log entry 26). -/
def Obligations.FontAddress : Prop :=
  ∀ (x : Nibble) (s : State),
    ReadsAs (0xF029 + 0x100 * x.val) (.ldF x) ∧
    ∃ t, exec (.ldF x) s = .next t ∧ t.i.toNat = (s.reg x).toNat * 5 ∧ MovedOn 2 s t ∧
      KeepsRegsBut [] s t ∧ KeepsAllBut [.index] s t

/-- LD B, Vx: the three decimal digits at `I`, `I + 1`, `I + 2`. When the last of them lies above
0xFFF, AddressError(0x1000) is raised, the digits below it are written, and `PC` stays
(R183; the partial effect is log entry 19, that `I` is kept log entry 12). -/
def Obligations.BcdStore : Prop :=
  ∀ (x : Nibble) (s : State),
    ReadsAs (0xF033 + 0x100 * x.val) (.ldB x) ∧
    (s.i.toNat + 2 ≤ 0xFFF → ∃ t d0 d1 d2, exec (.ldB x) s = .next t ∧
      memRead s.i.toNat t = .ok d0 ∧ memRead (s.i.toNat + 1) t = .ok d1 ∧
      memRead (s.i.toNat + 2) t = .ok d2 ∧ d1.toNat ≤ 9 ∧ d2.toNat ≤ 9 ∧
      d0.toNat * 100 + d1.toNat * 10 + d2.toNat = (s.reg x).toNat ∧
      KeepsMemoryOutside s.i.toNat 3 s t ∧ MovedOn 2 s t ∧ KeepsRegsBut [] s t ∧
      KeepsAllBut [.memory] s t) ∧
    (s.i.toNat < 4096 → 0xFFF < s.i.toNat + 2 → ∃ t, exec (.ldB x) s = .next t ∧
      t.faulted = some (.addressError 0x1000) ∧ t.pc = s.pc ∧
      (∃ d0, memRead s.i.toNat t = .ok d0 ∧ d0.toNat = (s.reg x).toNat / 100) ∧
      (s.i.toNat = 0xFFE → ∃ d1, memRead 0xFFF t = .ok d1 ∧ d1.toNat = (s.reg x).toNat / 10 % 10) ∧
      KeepsMemoryOutside s.i.toNat 3 s t ∧ KeepsRegsBut [] s t ∧ KeepsAllBut [.memory, .fault] s t)

/-- LD [I], Vx: `V[0]` to `V[x]` at `I` to `I + x`. When the range passes 0xFFF, AddressError(0x1000)
is raised, the bytes below it are written, and `PC` stays (R184; log entries 12 and 19). -/
def Obligations.RegisterDump : Prop :=
  ∀ (x : Nibble) (s : State),
    ReadsAs (0xF055 + 0x100 * x.val) (.ldMemVx x) ∧
    (s.i.toNat + x.val ≤ 0xFFF → ∃ t, exec (.ldMemVx x) s = .next t ∧
      (∀ k : Nibble, k ≤ x → memRead (s.i.toNat + k.val) t = .ok (s.reg k)) ∧
      KeepsMemoryOutside s.i.toNat (x.val + 1) s t ∧ MovedOn 2 s t ∧ KeepsRegsBut [] s t ∧
      KeepsAllBut [.memory] s t) ∧
    (s.i.toNat < 4096 → 0xFFF < s.i.toNat + x.val → ∃ t, exec (.ldMemVx x) s = .next t ∧
      t.faulted = some (.addressError 0x1000) ∧ t.pc = s.pc ∧
      (∀ k : Nibble, s.i.toNat + k.val ≤ 0xFFF → memRead (s.i.toNat + k.val) t = .ok (s.reg k)) ∧
      KeepsMemoryOutside s.i.toNat (x.val + 1) s t ∧ KeepsRegsBut [] s t ∧
      KeepsAllBut [.memory, .fault] s t)

/-- LD Vx, [I]: `V[0]` to `V[x]` from `I` to `I + x`. When the range passes 0xFFF, AddressError(0x1000)
is raised, the registers below the boundary are loaded, the others keep their values, and `PC` stays
(R185; log entries 12 and 19). -/
def Obligations.RegisterLoad : Prop :=
  ∀ (x : Nibble) (s : State),
    ReadsAs (0xF065 + 0x100 * x.val) (.ldVxMem x) ∧
    (s.i.toNat + x.val ≤ 0xFFF → ∃ t, exec (.ldVxMem x) s = .next t ∧
      (∀ k : Nibble, k ≤ x → memRead (s.i.toNat + k.val) s = .ok (t.reg k)) ∧
      (∀ k : Nibble, x < k → t.reg k = s.reg k) ∧ MovedOn 2 s t ∧ KeepsAllBut [] s t) ∧
    (s.i.toNat < 4096 → 0xFFF < s.i.toNat + x.val → ∃ t, exec (.ldVxMem x) s = .next t ∧
      t.faulted = some (.addressError 0x1000) ∧ t.pc = s.pc ∧
      (∀ k : Nibble, s.i.toNat + k.val ≤ 0xFFF → memRead (s.i.toNat + k.val) s = .ok (t.reg k)) ∧
      (∀ k : Nibble, 0xFFF < s.i.toNat + k.val → t.reg k = s.reg k) ∧ KeepsAllBut [.fault] s t)

/-! ### Display (44_display.md) -/

/-- CLS: every pixel 0, and `VF` is not written (R203). -/
def Obligations.ClearScreen : Prop :=
  ∀ s : State, ReadsAs 0x00E0 .cls ∧
    ∃ t, exec .cls s = .next t ∧ (∀ x y, pixel t.fb x y = false) ∧ MovedOn 2 s t ∧
      KeepsRegsBut [] s t ∧ KeepsAllBut [.display] s t

/-- DRW Vx, Vy, nibble: the `n` bytes at `I` are drawn at `(V[x], V[y])`, read before `VF` is written,
and `VF` is the collision. When the range exceeds memory, AddressError(I) is raised and nothing else
changes (R204; that the sprite lies at `I`, and the touching range, are log entries 25 and 4). -/
def Obligations.DrawSpriteFromMemory : Prop :=
  ∀ (x y n : Nibble) (s : State),
    ReadsAs (0xD000 + 0x100 * x.val + 0x10 * y.val + n.val) (.drw x y n) ∧
    (s.i.toNat + n.val ≤ 4096 → ∃ t, ∃ rows : List Byte, exec (.drw x y n) s = .next t ∧
      rows.length = n.val ∧ (∀ k, ∀ h : k < rows.length, memRead (s.i.toNat + k) s = .ok rows[k]) ∧
      t.fb = (drawSprite s.fb (s.reg x).toNat (s.reg y).toNat rows).1 ∧
      (t.reg 15).toNat =
        (if (drawSprite s.fb (s.reg x).toNat (s.reg y).toNat rows).2 = true then 1 else 0) ∧
      MovedOn 2 s t ∧ KeepsRegsBut [15] s t ∧ KeepsAllBut [.display] s t) ∧
    (4096 < s.i.toNat + n.val → ∃ t, exec (.drw x y n) s = .next t ∧
      OnlyFaulted (.addressError s.i.toNat) s t)

/-- `drawSprite`, pixel by pixel: the new pixel is the XOR of the old one and the sprite's bit at its
wrapped coordinates, and the result is a collision exactly when some lit pixel meets a 1 bit (R202).
A sprite of up to 32 rows visits no pixel twice. -/
def Obligations.DrawSpriteXorsEachPixel : Prop :=
  ∀ (d : Display) (x0 y0 : Nat) (rows : List Byte), rows.length ≤ 32 →
    (∀ px py, pixel (drawSprite d x0 y0 rows).1 px py = true ↔
      ((pixel d px py = true ∧ ¬ SpriteBit x0 y0 rows px py) ∨
        (¬ pixel d px py = true ∧ SpriteBit x0 y0 rows px py))) ∧
    ((drawSprite d x0 y0 rows).2 = true ↔
      ∃ px py, pixel d px py = true ∧ SpriteBit x0 y0 rows px py)

/-- Two identical draws cancel out on every display. A sprite with a 1 bit collides in one of the two
draws, and on a clear display in the second; that the second draw collides for every display, as a
remark of R202 says, does not follow from its pseudocode (log entry 28). -/
def Obligations.TwoIdenticalDrawsCancel : Prop :=
  ∀ (d : Display) (x0 y0 : Nat) (rows : List Byte), rows.length ≤ 32 →
    let first := drawSprite d x0 y0 rows
    let second := drawSprite first.1 x0 y0 rows
    second.1 = d ∧
    (first.2 = true ∨ second.2 = true ↔ ∃ row ∈ rows, row ≠ 0#8) ∧
    (d = clearDisplay → (second.2 = true ↔ ∃ row ∈ rows, row ≠ 0#8))

/-- The component's other operations (R205). `setPixel` does not wrap: inside the grid it sets that
pixel alone, outside it fails. `getPixel` is `FB[y][x]`, and the host's view shows the same pixels.
`clear()` makes every pixel 0. Only the sprite draw wraps: each pixel it writes is a `setPixel` at wrapped
coordinates, so it never meets the coordinate error. -/
def Obligations.SetPixelIsBounded : Prop :=
  (∀ (d : Display) (x y : Nat) (bit : Bool),
    (x < 64 ∧ y < 32 → ∃ d', setPixel d x y bit = some d' ∧
      ∀ px py, pixel d' px py = if px.val = x ∧ py.val = y then bit else pixel d px py) ∧
    (64 ≤ x ∨ 32 ≤ y → setPixel d x y bit = none)) ∧
  (∀ (s : State) (px : Fin 64) (py : Fin 32), pixel s.fb px py = s.fb[py.val][px.val] ∧
    pixel (framebuffer s) px py = pixel s.fb px py) ∧
  (∀ (px : Fin 64) (py : Fin 32), pixel clearDisplay px py = false) ∧
  (∀ (d : Display) (x y : Nat) (bit collided : Bool),
    setPixel d (x % 64) (y % 32) (pixel d (Fin.ofNat 64 x) (Fin.ofNat 32 y) ^^ bit) =
      some (xorPixel (Fin.ofNat 64 x) (Fin.ofNat 32 y) bit (d, collided)).1)

/-- The helpers called standalone reject what is not a byte, and on a byte give its decimal digits and
its eight bits, the most significant first (R201, 43_index_memory.md rule R183,
60_exceptions.md rule R248). -/
def Obligations.StandaloneHelpers : Prop :=
  (∀ v : Int, (v < 0 ∨ 255 < v) →
    bcdRoutine v = .error .invalidValue ∧ decodeRowBits v = .error .invalidValue) ∧
  (∀ b : Byte,
    bcdRoutine b.toNat = .ok [BitVec.ofNat 8 (b.toNat / 100), BitVec.ofNat 8 (b.toNat / 10 % 10),
      BitVec.ofNat 8 (b.toNat % 10)] ∧
    ∃ bits : List Bool, decodeRowBits b.toNat = .ok bits ∧ bits.length = 8 ∧
      ∀ k, ∀ h : k < bits.length, bits[k] = decide ((b.toNat >>> (7 - k)) % 2 = 1))

/-! ### Timers and keys (45_timers_keys.md, 60_exceptions.md) -/

/-- LD Vx, DT, with the encoding the source confirms (R215; that the name means this is read off it:
PRESUMED, log entry 31; the reduction of `PC` is log entry 14). -/
def Obligations.ReadDelayTimer : Prop :=
  ∀ (x : Nibble) (s : State),
    ReadsAs (0xF007 + 0x100 * x.val) (.ldVxDt x) ∧
    ∃ t, exec (.ldVxDt x) s = .next t ∧ t.reg x = s.dt ∧ MovedOn 2 s t ∧
      KeepsRegsBut [x] s t ∧ KeepsAllBut [] s t

/-- LD DT, Vx and LD ST, Vx load any value, and `soundActive()` follows at once (R216, R217; the numbers
are log entry 8, the reading of the names log entry 31). -/
def Obligations.SetTimers : Prop :=
  ∀ (x : Nibble) (s : State),
    ReadsAs (0xF015 + 0x100 * x.val) (.ldDtVx x) ∧ ReadsAs (0xF018 + 0x100 * x.val) (.ldStVx x) ∧
    (∃ t, exec (.ldDtVx x) s = .next t ∧ t.dt = s.reg x ∧ MovedOn 2 s t ∧
      KeepsRegsBut [] s t ∧ KeepsAllBut [.delay] s t) ∧
    (∃ t, exec (.ldStVx x) s = .next t ∧ t.st = s.reg x ∧
      (soundActive t = true ↔ 0 < (s.reg x).toNat) ∧ MovedOn 2 s t ∧
      KeepsRegsBut [] s t ∧ KeepsAllBut [.sound] s t)

/-- The delay timer: LD DT, Vx writes it with any value, LD Vx, DT and `delayValue()` read it, the
tick takes one off when it is above 0 and never passes below, reset clears it (10_state.md rule R26;
that LD DT, Vx and LD Vx, DT copy `V[x]` and `DT` is read off their names: PRESUMED, log entry 31). -/
def Obligations.DelayTimerBehaviour : Prop :=
  (∀ (x : Nibble) (s : State), ∃ t u, exec (.ldDtVx x) s = .next t ∧ t.dt = s.reg x ∧
    exec (.ldVxDt x) s = .next u ∧ u.reg x = s.dt) ∧
  (∀ s : State, (tickTimers s).dt.toNat = s.dt.toNat - 1 ∧ delayValue s = s.dt ∧
    (resetEvent s).dt = 0#8)

/-- The sound timer: LD ST, Vx writes it, the tick counts it down, reset clears it; THE HOST SEES ONLY
whether it is above 0, since the other two observers and the report of every event are the same
whatever it holds; and NO INSTRUCTION READS IT: two states that differ in it alone run every
instruction alike (10_state.md rule R27; that LD ST, Vx copies `V[x]` and that `ST` has no getter are
PRESUMED, log entry 31). -/
def Obligations.SoundTimerIsWriteOnly : Prop :=
  (∀ (x : Nibble) (s : State), ∃ t, exec (.ldStVx x) s = .next t ∧ t.st = s.reg x) ∧
  (∀ s : State, (tickTimers s).st.toNat = s.st.toNat - 1 ∧ (resetEvent s).st = 0#8 ∧
    (soundActive s = true ↔ 0 < s.st.toNat)) ∧
  (∀ (s : State) (b : Byte), framebuffer (s.setSt b) = framebuffer s ∧
    delayValue (s.setSt b) = delayValue s ∧
    ∀ e : Event, (applyEvent e (s.setSt b)).2 = (applyEvent e s).2) ∧
  (∀ (i : Instr) (s t : State) (b : Byte), exec i s = .next t →
    ∃ u, exec i (s.setSt b) = .next u ∧ u.setSt 0#8 = t.setSt 0#8)

/-- SKP and SKNP: the condition is that the pressed key's code is all of `V[x]`; the key stays latched
(R218, R219; log entries 15 and 31). -/
def Obligations.KeySkips : Prop :=
  ∀ (x : Nibble) (s : State),
    ReadsAs (0xE09E + 0x100 * x.val) (.skp x) ∧ ReadsAs (0xE0A1 + 0x100 * x.val) (.sknp x) ∧
    ∃ t u, exec (.skp x) s = .next t ∧ exec (.sknp x) s = .next u ∧
      ((∃ k, s.pressed = some k ∧ k.val = (s.reg x).toNat) → MovedOn 4 s t ∧ MovedOn 2 s u) ∧
      ((∀ k, s.pressed = some k → k.val ≠ (s.reg x).toNat) → MovedOn 2 s t ∧ MovedOn 4 s u) ∧
      KeepsRegsBut [] s t ∧ KeepsAllBut [] s t ∧ KeepsRegsBut [] s u ∧ KeepsAllBut [] s u

/-- LD Vx, K: with a key pressed it is consumed into `V[x]` at once; without one the core enters
WaitingForKey and `PC` stays (R220, 40_step_cycle.md rule R123; log entries 16 and 17). -/
def Obligations.WaitForKey : Prop :=
  ∀ (x : Nibble) (s : State),
    ReadsAs (0xF00A + 0x100 * x.val) (.ldVxK x) ∧
    (∀ k, s.pressed = some k → ∃ t, exec (.ldVxK x) s = .next t ∧ (t.reg x).toNat = k.val ∧
      t.pressed = none ∧ MovedOn 2 s t ∧ KeepsRegsBut [x] s t ∧ KeepsAllBut [.pressed] s t) ∧
    (s.pressed = none → ∃ t, exec (.ldVxK x) s = .next t ∧ t.waiting = true ∧ t.waitReg = x ∧
      t.pc = s.pc ∧ KeepsRegsBut [] s t ∧ KeepsAllBut [.waiting, .waitReg] s t)

/-- `tickTimers()` takes one off each timer that is above 0 and changes nothing else, in every state
(60_exceptions.md rule R262; log entry 30). -/
def Obligations.TickCountsDownBothTimers : Prop :=
  ∀ s : State, let t := (applyEvent .tickTimers s).1
    t.dt.toNat = s.dt.toNat - 1 ∧ t.st.toNat = s.st.toNat - 1 ∧ t.pc = s.pc ∧
    KeepsRegsBut [] s t ∧ KeepsAllBut [.delay, .sound] s t

/-- The key events and the forced clear: a key-down replaces the recorded key, a key-up releases only
the recorded one, a code above 15 is refused, the forced clear ends the wait; nothing else changes
(60_exceptions.md rules R265 to R267; log entries 18 and 24). -/
def Obligations.HostInputEvents : Prop :=
  ∀ (code : Nat) (s : State),
    (∀ h : code < 16, applyEvent (.setKey code) s = ({ s with pressed := some ⟨code, h⟩ }, .ok) ∧
      (s.pressed = some ⟨code, h⟩ → applyEvent (.clearKey code) s = ({ s with pressed := none }, .ok)) ∧
      (s.pressed ≠ some ⟨code, h⟩ → applyEvent (.clearKey code) s = (s, .ok))) ∧
    (16 ≤ code → applyEvent (.setKey code) s = (s, .refused (.keyCodeOutOfDomain code)) ∧
      applyEvent (.clearKey code) s = (s, .refused (.keyCodeOutOfDomain code))) ∧
    applyEvent .forceClearWait s = ({ s with waiting := false }, .ok)

/-! ### Rules over the whole machine -/

/-- THE FRAME OF EVERY INSTRUCTION: whatever the operands and the state, an instruction writes no
general register and no piece of state but those the spec's tables give it; `VF` in particular is
written by the seven instructions of 10_state.md rule R23 and by explicit destinations only
(10_state.md rules R20, R23, R24, R28, R29; log entries 11 and 12). -/
def Obligations.InstructionsWriteOnlyWhatTheTablesSay : Prop :=
  ∀ (i : Instr) (s t : State), exec i s = .next t →
    KeepsRegsBut (writtenRegs i) s t ∧ KeepsAllBut (writtenParts i) s t

/-- The program-counter policy, its five classes: unchanged by a fault; otherwise the target, with no
increment, for the four instructions that set `PC`; 2 or 4 on for a skip; unchanged or 2 on for the
wait; 2 on for every other instruction (40_step_cycle.md rule R122; the reduction modulo 4096 is log
entry 14, the register of JP V0 log entry 13). -/
def Obligations.ProgramCounterPolicy : Prop :=
  ∀ (i : Instr) (s t : State), s.faulted = none → exec i s = .next t →
    (t.faulted ≠ none → t.pc = s.pc) ∧
    (t.faulted = none →
      (pcClass i = .setsPc → JumpedTo i s t) ∧
      (pcClass i = .plain → MovedOn 2 s t) ∧
      (pcClass i = .skip → MovedOn 2 s t ∨ MovedOn 4 s t) ∧
      (pcClass i = .wait → if s.pressed = none then t.pc = s.pc ∧ t.waiting = true else MovedOn 2 s t))

/-- A faulting instruction has had no effect but the latch, except that LD B, LD [I], Vx and
LD Vx, [I] may have transferred bytes (60_exceptions.md rule R251; log entry 19). -/
def Obligations.FaultsArePrecise : Prop :=
  ∀ (i : Instr) (s t : State) (f : Fault), s.faulted = none → exec i s = .next t →
    t.faulted = some f → (∀ x, i ≠ .ldB x ∧ i ≠ .ldMemVx x ∧ i ≠ .ldVxMem x) → OnlyFaulted f s t

/-- A finished program stays finished: once `PC` stands at a jump to itself, no run of steps, ticks and
key events changes the registers, `I`, `PC`, memory, the display or the stack
(40_step_cycle.md rule R125; the definition of finished is log entry 27). -/
def Obligations.FinishedProgramsStayFinished : Prop :=
  ∀ (es : List Event) (s : State), Finished s → (∀ e ∈ es, e ≠ .reset ∧ ∀ bytes, e ≠ .loadProgram bytes) →
    Finished (runEvents es s) ∧ (runEvents es s).pc = s.pc ∧ KeepsRegsBut [] s (runEvents es s) ∧
    KeepsAllBut [.delay, .sound, .pressed] s (runEvents es s)

/-- Without a key a wait lasts: steps, ticks and key-ups, in any number and order, change nothing but
the timers ("blocks PC advancement indefinitely until an external caller supplies a key",
40_step_cycle.md rule R123). -/
def Obligations.WaitBlocksUntilAKeyComes : Prop :=
  ∀ (es : List Event) (s : State), s.faulted = none → s.waiting = true → s.pressed = none →
    (∀ e ∈ es, e = .step ∨ e = .tickTimers ∨ ∃ code, e = .clearKey code) →
    (runEvents es s).pc = s.pc ∧ KeepsRegsBut [] s (runEvents es s) ∧
    KeepsAllBut [.delay, .sound] s (runEvents es s)
end

