-- ==== Sys2Proof/Laws/Decode.lean ====
section
/-! SUPPORT. The fields of a packed word, and the word of its two bytes. -/

namespace Sys2Proof.Laws

/-! ### Format A -/

theorem fieldOp_packA (op : Nat) (_h : op < 16) (nnn : Addr12) : fieldOp (packA op nnn) = op := by
  have := nnn.isLt
  simp only [fieldOp, packA, BitVec.toNat_ofNat]; omega

theorem fieldNnn_packA (op : Nat) (nnn : Addr12) : fieldNnn (packA op nnn) = nnn := by
  have := nnn.isLt
  apply BitVec.eq_of_toNat_eq
  simp only [fieldNnn, packA, BitVec.toNat_ofNat]; omega

/-! ### Formats XK and X -/

theorem fieldOp_packXK (op : Nat) (_h : op < 16) (x : Nibble) (kk : Byte) :
    fieldOp (packXK op x kk) = op := by
  have := kk.isLt
  simp only [fieldOp, packXK, BitVec.toNat_ofNat]; omega

theorem fieldX_packXK (op : Nat) (x : Nibble) (kk : Byte) :
    fieldX (packXK op x kk) = x := by
  have := kk.isLt
  apply Fin.ext
  simp only [fieldX, packXK, BitVec.toNat_ofNat, Fin.ofNat]; omega

theorem fieldKk_packXK (op : Nat) (x : Nibble) (kk : Byte) :
    fieldKk (packXK op x kk) = kk := by
  have := kk.isLt
  apply BitVec.eq_of_toNat_eq
  simp only [fieldKk, packXK, BitVec.toNat_ofNat]; omega

/-! ### Formats XY and XYN -/

theorem fieldOp_packXYN (op : Nat) (_h : op < 16) (x y n : Nibble) :
    fieldOp (packXYN op x y n) = op := by
  simp only [fieldOp, packXYN, BitVec.toNat_ofNat]; omega

theorem fieldX_packXYN (op : Nat) (x y n : Nibble) :
    fieldX (packXYN op x y n) = x := by
  apply Fin.ext
  simp only [fieldX, packXYN, BitVec.toNat_ofNat, Fin.ofNat]; omega

theorem fieldY_packXYN (op : Nat) (x y n : Nibble) :
    fieldY (packXYN op x y n) = y := by
  apply Fin.ext
  simp only [fieldY, packXYN, BitVec.toNat_ofNat, Fin.ofNat]; omega

theorem fieldN_packXYN (op : Nat) (x y n : Nibble) :
    fieldN (packXYN op x y n) = n := by
  apply Fin.ext
  simp only [fieldN, packXYN, BitVec.toNat_ofNat, Fin.ofNat]; omega

/-! ### Packing the fields of a word -/

theorem packA_fields (w : Word) : packA (fieldOp w) (fieldNnn w) = w := by
  have := w.isLt
  apply BitVec.eq_of_toNat_eq
  simp only [fieldOp, fieldNnn, packA, BitVec.toNat_ofNat]; omega

theorem packXK_fields (w : Word) : packXK (fieldOp w) (fieldX w) (fieldKk w) = w := by
  have := w.isLt
  apply BitVec.eq_of_toNat_eq
  simp only [fieldOp, fieldX, fieldKk, packXK, BitVec.toNat_ofNat, Fin.ofNat]; omega

theorem packXYN_fields (w : Word) : packXYN (fieldOp w) (fieldX w) (fieldY w) (fieldN w) = w := by
  have := w.isLt
  apply BitVec.eq_of_toNat_eq
  simp only [fieldOp, fieldX, fieldY, fieldN, packXYN, BitVec.toNat_ofNat, Fin.ofNat]; omega

/-! ### Words as numbers -/

theorem ofNat_eq_packA (op n : Nat) (nnn : Addr12) (h : n = op * 4096 + nnn.toNat) :
    BitVec.ofNat 16 n = packA op nnn := by rw [h]; rfl

theorem ofNat_eq_packXK (op n : Nat) (x : Nibble) (kk : Byte)
    (h : n = op * 4096 + x.val * 256 + kk.toNat) : BitVec.ofNat 16 n = packXK op x kk := by rw [h]; rfl

theorem ofNat_eq_packXYN (op m : Nat) (x y n : Nibble)
    (h : m = op * 4096 + x.val * 256 + y.val * 16 + n.val) :
    BitVec.ofNat 16 m = packXYN op x y n := by rw [h]; rfl

/-! ### Bytes -/

@[simp] theorem wordOfBytes_highByte_lowByte (w : Word) :
    wordOfBytes (highByte w) (lowByte w) = w := by
  have := w.isLt
  apply BitVec.eq_of_toNat_eq
  simp only [wordOfBytes, highByte, lowByte, BitVec.toNat_ofNat]; omega

theorem wordOfBytes_toNat (hi lo : Byte) : (wordOfBytes hi lo).toNat = hi.toNat * 256 + lo.toNat := by
  have := hi.isLt
  have := lo.isLt
  simp only [wordOfBytes, BitVec.toNat_ofNat]; omega

/-- The decoder reads the table's word itself. -/
theorem decodeTableWord_eq_some (nbits w : Nat) (i : Instr) :
    decodeTableWord nbits w = some i ↔ decodeWord (tableWord nbits w) = .instr i := by
  simp only [decodeTableWord, decodeBytes, wordOfBytes_highByte_lowByte]
  split <;> simp_all

end Sys2Proof.Laws
end

