-- ==== Sys2Proof/Laws/Display.lean ====
section
/-! SUPPORT. Pixels: what the display's single-pixel operations do to every pixel. -/

namespace Sys2Proof.Laws

open Sys2Proof.Machine

theorem pixel_putPixel (d : Display) (x px : Fin 64) (y py : Fin 32) (bit : Bool) :
    pixel (putPixel d x y bit) px py = if px = x ∧ py = y then bit else pixel d px py := by
  simp only [pixel, putPixel, Vector.getElem_set, Fin.ext_iff]
  by_cases hy : py.val = y.val
  · by_cases hx : px.val = x.val
    · simp [hx, hy]
    · simp [hx, hy, Ne.symm hx]
  · simp [hy, Ne.symm hy]

@[simp] theorem pixel_clearDisplay (x : Fin 64) (y : Fin 32) : pixel clearDisplay x y = false := by
  simp [pixel, clearDisplay]

/-- Displays with the same pixels are the same. -/
theorem display_ext {d e : Display} (h : ∀ x y, pixel d x y = pixel e x y) : d = e := by
  apply Vector.ext
  intro y hy
  apply Vector.ext
  intro x hx
  exact h ⟨x, hx⟩ ⟨y, hy⟩

/-- One pixel of a sprite: the XOR, and the collision. -/
theorem xorPixel_eq (px qx : Fin 64) (py qy : Fin 32) (bit : Bool) (dc : Display × Bool) :
    pixel (xorPixel px py bit dc).1 qx qy =
      (if qx = px ∧ qy = py then pixel dc.1 qx qy ^^ bit else pixel dc.1 qx qy) ∧
    (xorPixel px py bit dc).2 = (dc.2 || (pixel dc.1 px py && bit)) := by
  refine ⟨?_, rfl⟩
  simp only [xorPixel, pixel_putPixel]
  split
  · next h => rw [h.1, h.2]
  · rfl

@[simp] theorem rowBits_length (v : Byte) : (rowBits v).length = 8 := by simp [rowBits]

theorem rowBits_getElem (v : Byte) (b : Nat) (h : b < (rowBits v).length) :
    (rowBits v)[b] = v.getLsbD (7 - b) := by simp [rowBits]

/-- One row of a sprite: exactly the pixels under its 1 bits are inverted. Up to 64 bits, no pixel is
visited twice. -/
theorem drawBits_pixel (x0 : Nat) (py : Fin 32) (bits : List Bool) : ∀ (b : Nat) (dc : Display × Bool),
    bits.length ≤ 64 → ∀ (qx : Fin 64) (qy : Fin 32),
    (pixel (drawBits x0 py b bits dc).1 qx qy = true ↔
      (pixel dc.1 qx qy = true ↔ ¬ (qy = py ∧ ∃ k, ∃ h : k < bits.length, bits[k] = true ∧
        qx.val = (x0 + (b + k)) % 64))) := by
  induction bits with
  | nil => intro b dc _ qx qy; simp [drawBits]
  | cons bit bits ih =>
    intro b dc hl qx qy
    rw [drawBits, ih (b + 1) _ (by simp at hl; omega), (xorPixel_eq _ _ _ _ _ _).1]
    have hx : (qx = Fin.ofNat 64 (x0 + b)) ↔ qx.val = (x0 + b) % 64 := by simp [Fin.ext_iff]
    have split : (∃ k, ∃ h : k < (bit :: bits).length, (bit :: bits)[k] = true ∧ qx.val = (x0 + (b + k)) % 64) ↔
        (bit = true ∧ qx.val = (x0 + b) % 64) ∨ (∃ k, ∃ h : k < bits.length, bits[k] = true ∧ qx.val = (x0 + (b + 1 + k)) % 64) := by
      constructor
      · rintro ⟨k, h, e, hq⟩
        cases k with
        | zero => exact .inl ⟨e, hq⟩
        | succ k => exact .inr ⟨k, by simpa using h, by simpa using e, by rw [hq]; congr 1; omega⟩
      · rintro (⟨e, hq⟩ | ⟨k, h, e, hq⟩)
        · exact ⟨0, by simp, e, hq⟩
        · exact ⟨k + 1, by simpa using h, by simpa using e, by rw [hq]; congr 1; omega⟩
    simp only [split, hx]
    have excl : qx.val = (x0 + b) % 64 → ¬ ∃ k, ∃ h : k < bits.length, bits[k] = true ∧ qx.val = (x0 + (b + 1 + k)) % 64 := by
      rintro hq ⟨k, h, -, hq'⟩; simp at hl; omega
    by_cases h1 : qx.val = (x0 + b) % 64
    · have := excl h1
      by_cases h2 : qy = py <;> cases bit <;> cases hp : pixel dc.1 qx qy <;> simp [h1, h2] <;> simpa [h1] using this
    · simp [h1]

/-- One row of a sprite: the collision, a lit pixel under one of its 1 bits. -/
theorem drawBits_flag (x0 : Nat) (py : Fin 32) (bits : List Bool) : ∀ (b : Nat) (dc : Display × Bool),
    bits.length ≤ 64 →
    ((drawBits x0 py b bits dc).2 = true ↔ dc.2 = true ∨ ∃ k, ∃ h : k < bits.length, bits[k] = true ∧
      pixel dc.1 (Fin.ofNat 64 (x0 + (b + k))) py = true) := by
  induction bits with
  | nil => intro b dc _; simp [drawBits]
  | cons bit bits ih =>
    intro b dc hl
    rw [drawBits, ih (b + 1) _ (by simp at hl; omega), (xorPixel_eq _ 0 _ 0 _ _).2]
    simp only [Bool.or_eq_true, Bool.and_eq_true, or_assoc]
    have same : ∀ k, k < bits.length → pixel (xorPixel (Fin.ofNat 64 (x0 + b)) py bit dc).1 (Fin.ofNat 64 (x0 + (b + 1 + k))) py = pixel dc.1 (Fin.ofNat 64 (x0 + (b + (k + 1)))) py := by
      intro k hk
      have e : x0 + (b + 1 + k) = x0 + (b + (k + 1)) := by omega
      rw [e, (xorPixel_eq _ _ _ _ _ _).1, if_neg]
      rintro ⟨h, -⟩; simp [Fin.ext_iff] at h; simp at hl; omega
    refine or_congr Iff.rfl ⟨?_, ?_⟩
    · rintro (⟨h1, h2⟩ | ⟨k, h, e, hp⟩)
      · exact ⟨0, by simp, h2, h1⟩
      · exact ⟨k + 1, by simpa using h, by simpa using e, by rw [← same k h]; exact hp⟩
    · rintro ⟨k, h, e, hp⟩
      cases k with
      | zero => exact .inl ⟨hp, e⟩
      | succ k =>
        have hk : k < bits.length := by simpa using h
        exact .inr ⟨k, hk, by simpa using e, by rw [same k hk]; exact hp⟩

end Sys2Proof.Laws
end

