-- ==== Sys2Proof/Laws/Memory.lean ====
section
/-! SUPPORT. Memory as data: what every operation does to every byte, that every operation keeps the
canonical form, and that two canonical memories that list the same bytes are the same list. -/

namespace Sys2Proof.Laws

open Sys2Proof.Machine

/-! ### Bytes -/

theorem listed?_insert (m : Memory) (a b : Nat) (v : Byte) :
    Memory.listed? (Memory.insert m a v) b = if b = a then some v else Memory.listed? m b := by
  induction m with
  | nil => simp [Memory.insert, Memory.listed?]
  | cons c m ih =>
    obtain ⟨d, u⟩ := c
    simp only [Memory.insert]
    split
    · simp only [Memory.listed?]
    · split
      · next h => subst h; simp only [Memory.listed?]; split <;> simp_all
      · next h1 h2 =>
        simp only [Memory.listed?, ih]
        by_cases hb : b = d
        · simp [hb]; omega
        · simp [hb]

theorem listed?_erase (m : Memory) (a b : Nat) :
    Memory.listed? (Memory.erase m a) b = if b = a then none else Memory.listed? m b := by
  induction m with
  | nil => simp [Memory.erase, Memory.listed?]
  | cons c m ih =>
    obtain ⟨d, u⟩ := c
    simp only [Memory.erase]
    split
    · next h =>
      subst h
      simp only [ih, Memory.listed?]
      split <;> rfl
    · next h =>
      simp only [Memory.listed?, ih]
      by_cases hb : b = d
      · have : b ≠ a := by omega
        simp [hb, Ne.symm h]
      · simp [hb]

theorem listed?_put (m : Memory) (a b : Nat) (v : Byte) :
    Memory.listed? (Memory.put m a v) b =
      if b = a then (if resetByte? a = some v then none else some v) else Memory.listed? m b := by
  simp only [Memory.put]
  split
  · rw [listed?_erase]
  · rw [listed?_insert]

/-- A write is read back, and every other byte is left alone. -/
theorem byte_put (m : Memory) (a b : Nat) (v : Byte) :
    Memory.byte (Memory.put m a v) b = if b = a then v else Memory.byte m b := by
  simp only [Memory.byte, listed?_put]
  by_cases hb : b = a
  · subst hb
    by_cases hr : resetByte? b = some v
    · simp [hr, Memory.unlisted]
    · simp [hr]
  · simp [hb]

theorem byte_putAll (bytes : List Byte) (m : Memory) (a b : Nat) :
    Memory.byte (Memory.putAll m a bytes) b =
      if h : a ≤ b ∧ b - a < bytes.length then bytes[b - a]'h.2 else Memory.byte m b := by
  induction bytes generalizing m a with
  | nil => simp [Memory.putAll]
  | cons c bytes ih =>
    rw [Memory.putAll, ih, byte_put]
    by_cases hb : b = a
    · subst hb
      rw [dif_neg (by omega)]
      simp
    · by_cases h : a + 1 ≤ b ∧ b - (a + 1) < bytes.length
      · have h2 : a ≤ b ∧ b - a < (c :: bytes).length := by
          simp only [List.length_cons]; omega
        have e : b - a = (b - (a + 1)) + 1 := by omega
        rw [dif_pos h, dif_pos h2]
        simp only [e, List.getElem_cons_succ]
      · rw [dif_neg h, if_neg hb, dif_neg]
        simp only [List.length_cons]
        omega

/-- A byte outside the range written is left alone. -/
theorem byte_putAll_outside (bytes : List Byte) (m : Memory) (a b : Nat)
    (h : b < a ∨ a + bytes.length ≤ b) : Memory.byte (Memory.putAll m a bytes) b = Memory.byte m b := by
  rw [byte_putAll, dif_neg (by omega)]

/-- A byte inside the range written is the one written there. -/
theorem byte_putAll_inside (bytes : List Byte) (m : Memory) (a k : Nat) (h : k < bytes.length) :
    Memory.byte (Memory.putAll m a bytes) (a + k) = bytes[k] := by
  have h2 : a ≤ a + k ∧ a + k - a < bytes.length := by omega
  rw [byte_putAll, dif_pos h2]
  simp

/-! ### The canonical form -/

theorem wfFrom_cons (lo a : Nat) (u : Byte) (m : Memory) :
    Memory.wfFrom lo ((a, u) :: m) = true ↔
      lo ≤ a ∧ a < memSize ∧ resetByte? a ≠ some u ∧ Memory.wfFrom (a + 1) m = true := by
  simp only [Memory.wfFrom, Bool.and_eq_true, decide_eq_true_eq, and_assoc]

theorem wfFrom_mono {lo lo' : Nat} (h : lo' ≤ lo) {m : Memory} (w : Memory.wfFrom lo m = true) :
    Memory.wfFrom lo' m = true := by
  cases m with
  | nil => rfl
  | cons c m =>
    rw [wfFrom_cons] at w ⊢
    exact ⟨by omega, w.2⟩

theorem wfFrom_insert {lo a : Nat} {v : Byte} (hl : lo ≤ a) (ha : a < memSize)
    (hv : resetByte? a ≠ some v) {m : Memory} (w : Memory.wfFrom lo m = true) :
    Memory.wfFrom lo (Memory.insert m a v) = true := by
  induction m generalizing lo with
  | nil => exact (wfFrom_cons _ _ _ _).2 ⟨hl, ha, hv, rfl⟩
  | cons c m ih =>
    obtain ⟨d, u⟩ := c
    rw [wfFrom_cons] at w
    obtain ⟨w1, w2, w3, w4⟩ := w
    simp only [Memory.insert]
    split
    · next h => exact (wfFrom_cons _ _ _ _).2 ⟨hl, ha, hv, (wfFrom_cons _ _ _ _).2 ⟨h, w2, w3, w4⟩⟩
    · split
      · next h => subst h; exact (wfFrom_cons _ _ _ _).2 ⟨hl, ha, hv, w4⟩
      · exact (wfFrom_cons _ _ _ _).2 ⟨w1, w2, w3, ih (by omega) w4⟩

theorem wfFrom_erase {lo a : Nat} {m : Memory} (w : Memory.wfFrom lo m = true) :
    Memory.wfFrom lo (Memory.erase m a) = true := by
  induction m generalizing lo with
  | nil => rfl
  | cons c m ih =>
    obtain ⟨d, u⟩ := c
    rw [wfFrom_cons] at w
    simp only [Memory.erase]
    split
    · exact ih (wfFrom_mono (by omega) w.2.2.2)
    · exact (wfFrom_cons _ _ _ _).2 ⟨w.1, w.2.1, w.2.2.1, ih w.2.2.2⟩

/-- A write inside memory keeps the canonical form. -/
theorem wf_put {a : Nat} (v : Byte) (ha : a < memSize) {m : Memory} (w : Memory.wf m = true) :
    Memory.wf (Memory.put m a v) = true := by
  simp only [Memory.put]
  split
  · exact wfFrom_erase w
  · next h => exact wfFrom_insert (Nat.zero_le _) ha h w

/-- So does a bulk write inside memory. -/
theorem wf_putAll (bytes : List Byte) {a : Nat} (ha : a + bytes.length ≤ memSize) {m : Memory}
    (w : Memory.wf m = true) : Memory.wf (Memory.putAll m a bytes) = true := by
  induction bytes generalizing m a with
  | nil => exact w
  | cons c bytes ih =>
    simp only [List.length_cons] at ha
    exact ih (by omega) (wf_put c (by omega) w)

/-- The canonical form lists no address below its start. -/
theorem listed?_below {lo : Nat} {m : Memory} (w : Memory.wfFrom lo m = true) {a : Nat} (h : a < lo) :
    Memory.listed? m a = none := by
  induction m generalizing lo with
  | nil => rfl
  | cons c m ih =>
    obtain ⟨d, u⟩ := c
    rw [wfFrom_cons] at w
    have : a ≠ d := by omega
    simp only [Memory.listed?, this, if_false]
    exact ih w.2.2.2 (by omega)

/-- Equal memories are equal data: canonical memories that list the same bytes are the same list. -/
theorem eq_of_listed? {lo : Nat} {m n : Memory} (wm : Memory.wfFrom lo m = true)
    (wn : Memory.wfFrom lo n = true) (h : ∀ a, Memory.listed? m a = Memory.listed? n a) : m = n := by
  induction m generalizing lo n with
  | nil =>
    cases n with
    | nil => rfl
    | cons c n => have := h c.1; simp [Memory.listed?] at this
  | cons c m ih =>
    obtain ⟨d, u⟩ := c
    cases n with
    | nil => have := h d; simp [Memory.listed?] at this
    | cons e n =>
      obtain ⟨f, x⟩ := e
      rw [wfFrom_cons] at wm wn
      have hd : d = f := by
        by_contra hne
        rcases Nat.lt_or_gt_of_ne hne with hlt | hgt
        · have h1 := h d
          simp only [Memory.listed?, if_true, hne, if_false] at h1
          rw [listed?_below wn.2.2.2 (by omega)] at h1
          cases h1
        · have h1 := h f
          simp only [Memory.listed?, if_true, Ne.symm hne, if_false] at h1
          rw [listed?_below wm.2.2.2 (by omega)] at h1
          cases h1
      subst hd
      have hu : u = x := by have := h d; simpa [Memory.listed?] using this
      subst hu
      congr 1
      refine ih wm.2.2.2 wn.2.2.2 fun a => ?_
      by_cases ha : a = d
      · rw [listed?_below wm.2.2.2 (by omega), listed?_below wn.2.2.2 (by omega)]
      · have := h a; simpa [Memory.listed?, ha] using this

end Sys2Proof.Laws
end

