-- ==== Sys2Proof/Laws/State.lean ====
section
/-! SUPPORT. The state's simplification set: one lemma per field per update, and what an update does to
the value of a register, so that no later proof unfolds a record update. -/

namespace Sys2Proof.Laws

open Sys2Proof.Machine

variable (s : State)

/-! ### setReg -/

@[simp] theorem setReg_mem (r : Nibble) (b : Byte) : (s.setReg r b).mem = s.mem := rfl
@[simp] theorem setReg_v (r : Nibble) (b : Byte) : (s.setReg r b).v = s.v.set r.val b := rfl
@[simp] theorem setReg_i (r : Nibble) (b : Byte) : (s.setReg r b).i = s.i := rfl
@[simp] theorem setReg_pc (r : Nibble) (b : Byte) : (s.setReg r b).pc = s.pc := rfl
@[simp] theorem setReg_dt (r : Nibble) (b : Byte) : (s.setReg r b).dt = s.dt := rfl
@[simp] theorem setReg_st (r : Nibble) (b : Byte) : (s.setReg r b).st = s.st := rfl
@[simp] theorem setReg_sp (r : Nibble) (b : Byte) : (s.setReg r b).sp = s.sp := rfl
@[simp] theorem setReg_stack (r : Nibble) (b : Byte) : (s.setReg r b).stack = s.stack := rfl
@[simp] theorem setReg_fb (r : Nibble) (b : Byte) : (s.setReg r b).fb = s.fb := rfl
@[simp] theorem setReg_pressed (r : Nibble) (b : Byte) : (s.setReg r b).pressed = s.pressed := rfl
@[simp] theorem setReg_waiting (r : Nibble) (b : Byte) : (s.setReg r b).waiting = s.waiting := rfl
@[simp] theorem setReg_waitReg (r : Nibble) (b : Byte) : (s.setReg r b).waitReg = s.waitReg := rfl
@[simp] theorem setReg_faulted (r : Nibble) (b : Byte) : (s.setReg r b).faulted = s.faulted := rfl
@[simp] theorem setReg_draws (r : Nibble) (b : Byte) : (s.setReg r b).draws = s.draws := rfl

/-! ### setI -/

@[simp] theorem setI_mem (w : Word) : (s.setI w).mem = s.mem := rfl
@[simp] theorem setI_v (w : Word) : (s.setI w).v = s.v := rfl
@[simp] theorem setI_i (w : Word) : (s.setI w).i = w := rfl
@[simp] theorem setI_pc (w : Word) : (s.setI w).pc = s.pc := rfl
@[simp] theorem setI_dt (w : Word) : (s.setI w).dt = s.dt := rfl
@[simp] theorem setI_st (w : Word) : (s.setI w).st = s.st := rfl
@[simp] theorem setI_sp (w : Word) : (s.setI w).sp = s.sp := rfl
@[simp] theorem setI_stack (w : Word) : (s.setI w).stack = s.stack := rfl
@[simp] theorem setI_fb (w : Word) : (s.setI w).fb = s.fb := rfl
@[simp] theorem setI_pressed (w : Word) : (s.setI w).pressed = s.pressed := rfl
@[simp] theorem setI_waiting (w : Word) : (s.setI w).waiting = s.waiting := rfl
@[simp] theorem setI_waitReg (w : Word) : (s.setI w).waitReg = s.waitReg := rfl
@[simp] theorem setI_faulted (w : Word) : (s.setI w).faulted = s.faulted := rfl
@[simp] theorem setI_draws (w : Word) : (s.setI w).draws = s.draws := rfl

/-! ### setPc -/

@[simp] theorem setPc_mem (w : Word) : (s.setPc w).mem = s.mem := rfl
@[simp] theorem setPc_v (w : Word) : (s.setPc w).v = s.v := rfl
@[simp] theorem setPc_i (w : Word) : (s.setPc w).i = s.i := rfl
@[simp] theorem setPc_pc (w : Word) : (s.setPc w).pc = w := rfl
@[simp] theorem setPc_dt (w : Word) : (s.setPc w).dt = s.dt := rfl
@[simp] theorem setPc_st (w : Word) : (s.setPc w).st = s.st := rfl
@[simp] theorem setPc_sp (w : Word) : (s.setPc w).sp = s.sp := rfl
@[simp] theorem setPc_stack (w : Word) : (s.setPc w).stack = s.stack := rfl
@[simp] theorem setPc_fb (w : Word) : (s.setPc w).fb = s.fb := rfl
@[simp] theorem setPc_pressed (w : Word) : (s.setPc w).pressed = s.pressed := rfl
@[simp] theorem setPc_waiting (w : Word) : (s.setPc w).waiting = s.waiting := rfl
@[simp] theorem setPc_waitReg (w : Word) : (s.setPc w).waitReg = s.waitReg := rfl
@[simp] theorem setPc_faulted (w : Word) : (s.setPc w).faulted = s.faulted := rfl
@[simp] theorem setPc_draws (w : Word) : (s.setPc w).draws = s.draws := rfl

/-! ### advance -/

@[simp] theorem advance_mem (k : Nat) : (s.advance k).mem = s.mem := rfl
@[simp] theorem advance_v (k : Nat) : (s.advance k).v = s.v := rfl
@[simp] theorem advance_i (k : Nat) : (s.advance k).i = s.i := rfl
@[simp] theorem advance_pc (k : Nat) : (s.advance k).pc = s.pcPlus k := rfl
@[simp] theorem advance_dt (k : Nat) : (s.advance k).dt = s.dt := rfl
@[simp] theorem advance_st (k : Nat) : (s.advance k).st = s.st := rfl
@[simp] theorem advance_sp (k : Nat) : (s.advance k).sp = s.sp := rfl
@[simp] theorem advance_stack (k : Nat) : (s.advance k).stack = s.stack := rfl
@[simp] theorem advance_fb (k : Nat) : (s.advance k).fb = s.fb := rfl
@[simp] theorem advance_pressed (k : Nat) : (s.advance k).pressed = s.pressed := rfl
@[simp] theorem advance_waiting (k : Nat) : (s.advance k).waiting = s.waiting := rfl
@[simp] theorem advance_waitReg (k : Nat) : (s.advance k).waitReg = s.waitReg := rfl
@[simp] theorem advance_faulted (k : Nat) : (s.advance k).faulted = s.faulted := rfl
@[simp] theorem advance_draws (k : Nat) : (s.advance k).draws = s.draws := rfl

/-! ### setDt -/

@[simp] theorem setDt_mem (b : Byte) : (s.setDt b).mem = s.mem := rfl
@[simp] theorem setDt_v (b : Byte) : (s.setDt b).v = s.v := rfl
@[simp] theorem setDt_i (b : Byte) : (s.setDt b).i = s.i := rfl
@[simp] theorem setDt_pc (b : Byte) : (s.setDt b).pc = s.pc := rfl
@[simp] theorem setDt_dt (b : Byte) : (s.setDt b).dt = b := rfl
@[simp] theorem setDt_st (b : Byte) : (s.setDt b).st = s.st := rfl
@[simp] theorem setDt_sp (b : Byte) : (s.setDt b).sp = s.sp := rfl
@[simp] theorem setDt_stack (b : Byte) : (s.setDt b).stack = s.stack := rfl
@[simp] theorem setDt_fb (b : Byte) : (s.setDt b).fb = s.fb := rfl
@[simp] theorem setDt_pressed (b : Byte) : (s.setDt b).pressed = s.pressed := rfl
@[simp] theorem setDt_waiting (b : Byte) : (s.setDt b).waiting = s.waiting := rfl
@[simp] theorem setDt_waitReg (b : Byte) : (s.setDt b).waitReg = s.waitReg := rfl
@[simp] theorem setDt_faulted (b : Byte) : (s.setDt b).faulted = s.faulted := rfl
@[simp] theorem setDt_draws (b : Byte) : (s.setDt b).draws = s.draws := rfl

/-! ### setSt -/

@[simp] theorem setSt_mem (b : Byte) : (s.setSt b).mem = s.mem := rfl
@[simp] theorem setSt_v (b : Byte) : (s.setSt b).v = s.v := rfl
@[simp] theorem setSt_i (b : Byte) : (s.setSt b).i = s.i := rfl
@[simp] theorem setSt_pc (b : Byte) : (s.setSt b).pc = s.pc := rfl
@[simp] theorem setSt_dt (b : Byte) : (s.setSt b).dt = s.dt := rfl
@[simp] theorem setSt_st (b : Byte) : (s.setSt b).st = b := rfl
@[simp] theorem setSt_sp (b : Byte) : (s.setSt b).sp = s.sp := rfl
@[simp] theorem setSt_stack (b : Byte) : (s.setSt b).stack = s.stack := rfl
@[simp] theorem setSt_fb (b : Byte) : (s.setSt b).fb = s.fb := rfl
@[simp] theorem setSt_pressed (b : Byte) : (s.setSt b).pressed = s.pressed := rfl
@[simp] theorem setSt_waiting (b : Byte) : (s.setSt b).waiting = s.waiting := rfl
@[simp] theorem setSt_waitReg (b : Byte) : (s.setSt b).waitReg = s.waitReg := rfl
@[simp] theorem setSt_faulted (b : Byte) : (s.setSt b).faulted = s.faulted := rfl
@[simp] theorem setSt_draws (b : Byte) : (s.setSt b).draws = s.draws := rfl

/-! ### setMem -/

@[simp] theorem setMem_mem (m : Memory) : (s.setMem m).mem = m := rfl
@[simp] theorem setMem_v (m : Memory) : (s.setMem m).v = s.v := rfl
@[simp] theorem setMem_i (m : Memory) : (s.setMem m).i = s.i := rfl
@[simp] theorem setMem_pc (m : Memory) : (s.setMem m).pc = s.pc := rfl
@[simp] theorem setMem_dt (m : Memory) : (s.setMem m).dt = s.dt := rfl
@[simp] theorem setMem_st (m : Memory) : (s.setMem m).st = s.st := rfl
@[simp] theorem setMem_sp (m : Memory) : (s.setMem m).sp = s.sp := rfl
@[simp] theorem setMem_stack (m : Memory) : (s.setMem m).stack = s.stack := rfl
@[simp] theorem setMem_fb (m : Memory) : (s.setMem m).fb = s.fb := rfl
@[simp] theorem setMem_pressed (m : Memory) : (s.setMem m).pressed = s.pressed := rfl
@[simp] theorem setMem_waiting (m : Memory) : (s.setMem m).waiting = s.waiting := rfl
@[simp] theorem setMem_waitReg (m : Memory) : (s.setMem m).waitReg = s.waitReg := rfl
@[simp] theorem setMem_faulted (m : Memory) : (s.setMem m).faulted = s.faulted := rfl
@[simp] theorem setMem_draws (m : Memory) : (s.setMem m).draws = s.draws := rfl

/-! ### setFb -/

@[simp] theorem setFb_mem (d : Display) : (s.setFb d).mem = s.mem := rfl
@[simp] theorem setFb_v (d : Display) : (s.setFb d).v = s.v := rfl
@[simp] theorem setFb_i (d : Display) : (s.setFb d).i = s.i := rfl
@[simp] theorem setFb_pc (d : Display) : (s.setFb d).pc = s.pc := rfl
@[simp] theorem setFb_dt (d : Display) : (s.setFb d).dt = s.dt := rfl
@[simp] theorem setFb_st (d : Display) : (s.setFb d).st = s.st := rfl
@[simp] theorem setFb_sp (d : Display) : (s.setFb d).sp = s.sp := rfl
@[simp] theorem setFb_stack (d : Display) : (s.setFb d).stack = s.stack := rfl
@[simp] theorem setFb_fb (d : Display) : (s.setFb d).fb = d := rfl
@[simp] theorem setFb_pressed (d : Display) : (s.setFb d).pressed = s.pressed := rfl
@[simp] theorem setFb_waiting (d : Display) : (s.setFb d).waiting = s.waiting := rfl
@[simp] theorem setFb_waitReg (d : Display) : (s.setFb d).waitReg = s.waitReg := rfl
@[simp] theorem setFb_faulted (d : Display) : (s.setFb d).faulted = s.faulted := rfl
@[simp] theorem setFb_draws (d : Display) : (s.setFb d).draws = s.draws := rfl

/-! ### setPressed -/

@[simp] theorem setPressed_mem (p : Option Nibble) : (s.setPressed p).mem = s.mem := rfl
@[simp] theorem setPressed_v (p : Option Nibble) : (s.setPressed p).v = s.v := rfl
@[simp] theorem setPressed_i (p : Option Nibble) : (s.setPressed p).i = s.i := rfl
@[simp] theorem setPressed_pc (p : Option Nibble) : (s.setPressed p).pc = s.pc := rfl
@[simp] theorem setPressed_dt (p : Option Nibble) : (s.setPressed p).dt = s.dt := rfl
@[simp] theorem setPressed_st (p : Option Nibble) : (s.setPressed p).st = s.st := rfl
@[simp] theorem setPressed_sp (p : Option Nibble) : (s.setPressed p).sp = s.sp := rfl
@[simp] theorem setPressed_stack (p : Option Nibble) : (s.setPressed p).stack = s.stack := rfl
@[simp] theorem setPressed_fb (p : Option Nibble) : (s.setPressed p).fb = s.fb := rfl
@[simp] theorem setPressed_pressed (p : Option Nibble) : (s.setPressed p).pressed = p := rfl
@[simp] theorem setPressed_waiting (p : Option Nibble) : (s.setPressed p).waiting = s.waiting := rfl
@[simp] theorem setPressed_waitReg (p : Option Nibble) : (s.setPressed p).waitReg = s.waitReg := rfl
@[simp] theorem setPressed_faulted (p : Option Nibble) : (s.setPressed p).faulted = s.faulted := rfl
@[simp] theorem setPressed_draws (p : Option Nibble) : (s.setPressed p).draws = s.draws := rfl

/-! ### setWaiting -/

@[simp] theorem setWaiting_mem (b : Bool) : (s.setWaiting b).mem = s.mem := rfl
@[simp] theorem setWaiting_v (b : Bool) : (s.setWaiting b).v = s.v := rfl
@[simp] theorem setWaiting_i (b : Bool) : (s.setWaiting b).i = s.i := rfl
@[simp] theorem setWaiting_pc (b : Bool) : (s.setWaiting b).pc = s.pc := rfl
@[simp] theorem setWaiting_dt (b : Bool) : (s.setWaiting b).dt = s.dt := rfl
@[simp] theorem setWaiting_st (b : Bool) : (s.setWaiting b).st = s.st := rfl
@[simp] theorem setWaiting_sp (b : Bool) : (s.setWaiting b).sp = s.sp := rfl
@[simp] theorem setWaiting_stack (b : Bool) : (s.setWaiting b).stack = s.stack := rfl
@[simp] theorem setWaiting_fb (b : Bool) : (s.setWaiting b).fb = s.fb := rfl
@[simp] theorem setWaiting_pressed (b : Bool) : (s.setWaiting b).pressed = s.pressed := rfl
@[simp] theorem setWaiting_waiting (b : Bool) : (s.setWaiting b).waiting = b := rfl
@[simp] theorem setWaiting_waitReg (b : Bool) : (s.setWaiting b).waitReg = s.waitReg := rfl
@[simp] theorem setWaiting_faulted (b : Bool) : (s.setWaiting b).faulted = s.faulted := rfl
@[simp] theorem setWaiting_draws (b : Bool) : (s.setWaiting b).draws = s.draws := rfl

/-! ### setWaitReg -/

@[simp] theorem setWaitReg_mem (r : Nibble) : (s.setWaitReg r).mem = s.mem := rfl
@[simp] theorem setWaitReg_v (r : Nibble) : (s.setWaitReg r).v = s.v := rfl
@[simp] theorem setWaitReg_i (r : Nibble) : (s.setWaitReg r).i = s.i := rfl
@[simp] theorem setWaitReg_pc (r : Nibble) : (s.setWaitReg r).pc = s.pc := rfl
@[simp] theorem setWaitReg_dt (r : Nibble) : (s.setWaitReg r).dt = s.dt := rfl
@[simp] theorem setWaitReg_st (r : Nibble) : (s.setWaitReg r).st = s.st := rfl
@[simp] theorem setWaitReg_sp (r : Nibble) : (s.setWaitReg r).sp = s.sp := rfl
@[simp] theorem setWaitReg_stack (r : Nibble) : (s.setWaitReg r).stack = s.stack := rfl
@[simp] theorem setWaitReg_fb (r : Nibble) : (s.setWaitReg r).fb = s.fb := rfl
@[simp] theorem setWaitReg_pressed (r : Nibble) : (s.setWaitReg r).pressed = s.pressed := rfl
@[simp] theorem setWaitReg_waiting (r : Nibble) : (s.setWaitReg r).waiting = s.waiting := rfl
@[simp] theorem setWaitReg_waitReg (r : Nibble) : (s.setWaitReg r).waitReg = r := rfl
@[simp] theorem setWaitReg_faulted (r : Nibble) : (s.setWaitReg r).faulted = s.faulted := rfl
@[simp] theorem setWaitReg_draws (r : Nibble) : (s.setWaitReg r).draws = s.draws := rfl

/-! ### setStack -/

@[simp] theorem setStack_mem (n : Fin 17) (k : Vector Word 16) : (s.setStack n k).mem = s.mem := rfl
@[simp] theorem setStack_v (n : Fin 17) (k : Vector Word 16) : (s.setStack n k).v = s.v := rfl
@[simp] theorem setStack_i (n : Fin 17) (k : Vector Word 16) : (s.setStack n k).i = s.i := rfl
@[simp] theorem setStack_pc (n : Fin 17) (k : Vector Word 16) : (s.setStack n k).pc = s.pc := rfl
@[simp] theorem setStack_dt (n : Fin 17) (k : Vector Word 16) : (s.setStack n k).dt = s.dt := rfl
@[simp] theorem setStack_st (n : Fin 17) (k : Vector Word 16) : (s.setStack n k).st = s.st := rfl
@[simp] theorem setStack_sp (n : Fin 17) (k : Vector Word 16) : (s.setStack n k).sp = n := rfl
@[simp] theorem setStack_stack (n : Fin 17) (k : Vector Word 16) : (s.setStack n k).stack = k := rfl
@[simp] theorem setStack_fb (n : Fin 17) (k : Vector Word 16) : (s.setStack n k).fb = s.fb := rfl
@[simp] theorem setStack_pressed (n : Fin 17) (k : Vector Word 16) : (s.setStack n k).pressed = s.pressed := rfl
@[simp] theorem setStack_waiting (n : Fin 17) (k : Vector Word 16) : (s.setStack n k).waiting = s.waiting := rfl
@[simp] theorem setStack_waitReg (n : Fin 17) (k : Vector Word 16) : (s.setStack n k).waitReg = s.waitReg := rfl
@[simp] theorem setStack_faulted (n : Fin 17) (k : Vector Word 16) : (s.setStack n k).faulted = s.faulted := rfl
@[simp] theorem setStack_draws (n : Fin 17) (k : Vector Word 16) : (s.setStack n k).draws = s.draws := rfl

/-! ### setDraws -/

@[simp] theorem setDraws_mem (k : Nat) : (s.setDraws k).mem = s.mem := rfl
@[simp] theorem setDraws_v (k : Nat) : (s.setDraws k).v = s.v := rfl
@[simp] theorem setDraws_i (k : Nat) : (s.setDraws k).i = s.i := rfl
@[simp] theorem setDraws_pc (k : Nat) : (s.setDraws k).pc = s.pc := rfl
@[simp] theorem setDraws_dt (k : Nat) : (s.setDraws k).dt = s.dt := rfl
@[simp] theorem setDraws_st (k : Nat) : (s.setDraws k).st = s.st := rfl
@[simp] theorem setDraws_sp (k : Nat) : (s.setDraws k).sp = s.sp := rfl
@[simp] theorem setDraws_stack (k : Nat) : (s.setDraws k).stack = s.stack := rfl
@[simp] theorem setDraws_fb (k : Nat) : (s.setDraws k).fb = s.fb := rfl
@[simp] theorem setDraws_pressed (k : Nat) : (s.setDraws k).pressed = s.pressed := rfl
@[simp] theorem setDraws_waiting (k : Nat) : (s.setDraws k).waiting = s.waiting := rfl
@[simp] theorem setDraws_waitReg (k : Nat) : (s.setDraws k).waitReg = s.waitReg := rfl
@[simp] theorem setDraws_faulted (k : Nat) : (s.setDraws k).faulted = s.faulted := rfl
@[simp] theorem setDraws_draws (k : Nat) : (s.setDraws k).draws = k := rfl

/-! ### setFlag -/

@[simp] theorem setFlag_mem (b : Bool) : (s.setFlag b).mem = s.mem := rfl
@[simp] theorem setFlag_v (b : Bool) : (s.setFlag b).v = s.v.set regF.val (flagByte b) := rfl
@[simp] theorem setFlag_i (b : Bool) : (s.setFlag b).i = s.i := rfl
@[simp] theorem setFlag_pc (b : Bool) : (s.setFlag b).pc = s.pc := rfl
@[simp] theorem setFlag_dt (b : Bool) : (s.setFlag b).dt = s.dt := rfl
@[simp] theorem setFlag_st (b : Bool) : (s.setFlag b).st = s.st := rfl
@[simp] theorem setFlag_sp (b : Bool) : (s.setFlag b).sp = s.sp := rfl
@[simp] theorem setFlag_stack (b : Bool) : (s.setFlag b).stack = s.stack := rfl
@[simp] theorem setFlag_fb (b : Bool) : (s.setFlag b).fb = s.fb := rfl
@[simp] theorem setFlag_pressed (b : Bool) : (s.setFlag b).pressed = s.pressed := rfl
@[simp] theorem setFlag_waiting (b : Bool) : (s.setFlag b).waiting = s.waiting := rfl
@[simp] theorem setFlag_waitReg (b : Bool) : (s.setFlag b).waitReg = s.waitReg := rfl
@[simp] theorem setFlag_faulted (b : Bool) : (s.setFlag b).faulted = s.faulted := rfl
@[simp] theorem setFlag_draws (b : Bool) : (s.setFlag b).draws = s.draws := rfl

/-! ### takeFault -/

@[simp] theorem takeFault_mem (f : Fault) : (takeFault f s).mem = s.mem := rfl
@[simp] theorem takeFault_v (f : Fault) : (takeFault f s).v = s.v := rfl
@[simp] theorem takeFault_i (f : Fault) : (takeFault f s).i = s.i := rfl
@[simp] theorem takeFault_pc (f : Fault) : (takeFault f s).pc = s.pc := rfl
@[simp] theorem takeFault_dt (f : Fault) : (takeFault f s).dt = s.dt := rfl
@[simp] theorem takeFault_st (f : Fault) : (takeFault f s).st = s.st := rfl
@[simp] theorem takeFault_sp (f : Fault) : (takeFault f s).sp = s.sp := rfl
@[simp] theorem takeFault_stack (f : Fault) : (takeFault f s).stack = s.stack := rfl
@[simp] theorem takeFault_fb (f : Fault) : (takeFault f s).fb = s.fb := rfl
@[simp] theorem takeFault_pressed (f : Fault) : (takeFault f s).pressed = s.pressed := rfl
@[simp] theorem takeFault_waiting (f : Fault) : (takeFault f s).waiting = s.waiting := rfl
@[simp] theorem takeFault_waitReg (f : Fault) : (takeFault f s).waitReg = s.waitReg := rfl
@[simp] theorem takeFault_faulted (f : Fault) : (takeFault f s).faulted = some f := rfl
@[simp] theorem takeFault_draws (f : Fault) : (takeFault f s).draws = s.draws := rfl

/-! ### takeKey -/

@[simp] theorem takeKey_mem (r k : Nibble) : (s.takeKey r k).mem = s.mem := rfl
@[simp] theorem takeKey_v (r k : Nibble) : (s.takeKey r k).v = s.v.set r.val (keyByte k) := rfl
@[simp] theorem takeKey_i (r k : Nibble) : (s.takeKey r k).i = s.i := rfl
@[simp] theorem takeKey_pc (r k : Nibble) : (s.takeKey r k).pc = s.pc := rfl
@[simp] theorem takeKey_dt (r k : Nibble) : (s.takeKey r k).dt = s.dt := rfl
@[simp] theorem takeKey_st (r k : Nibble) : (s.takeKey r k).st = s.st := rfl
@[simp] theorem takeKey_sp (r k : Nibble) : (s.takeKey r k).sp = s.sp := rfl
@[simp] theorem takeKey_stack (r k : Nibble) : (s.takeKey r k).stack = s.stack := rfl
@[simp] theorem takeKey_fb (r k : Nibble) : (s.takeKey r k).fb = s.fb := rfl
@[simp] theorem takeKey_pressed (r k : Nibble) : (s.takeKey r k).pressed = none := rfl
@[simp] theorem takeKey_waiting (r k : Nibble) : (s.takeKey r k).waiting = s.waiting := rfl
@[simp] theorem takeKey_waitReg (r k : Nibble) : (s.takeKey r k).waitReg = s.waitReg := rfl
@[simp] theorem takeKey_faulted (r k : Nibble) : (s.takeKey r k).faulted = s.faulted := rfl
@[simp] theorem takeKey_draws (r k : Nibble) : (s.takeKey r k).draws = s.draws := rfl

/-! ### enterWait -/

@[simp] theorem enterWait_mem (r : Nibble) : (s.enterWait r).mem = s.mem := rfl
@[simp] theorem enterWait_v (r : Nibble) : (s.enterWait r).v = s.v := rfl
@[simp] theorem enterWait_i (r : Nibble) : (s.enterWait r).i = s.i := rfl
@[simp] theorem enterWait_pc (r : Nibble) : (s.enterWait r).pc = s.pc := rfl
@[simp] theorem enterWait_dt (r : Nibble) : (s.enterWait r).dt = s.dt := rfl
@[simp] theorem enterWait_st (r : Nibble) : (s.enterWait r).st = s.st := rfl
@[simp] theorem enterWait_sp (r : Nibble) : (s.enterWait r).sp = s.sp := rfl
@[simp] theorem enterWait_stack (r : Nibble) : (s.enterWait r).stack = s.stack := rfl
@[simp] theorem enterWait_fb (r : Nibble) : (s.enterWait r).fb = s.fb := rfl
@[simp] theorem enterWait_pressed (r : Nibble) : (s.enterWait r).pressed = s.pressed := rfl
@[simp] theorem enterWait_waiting (r : Nibble) : (s.enterWait r).waiting = true := rfl
@[simp] theorem enterWait_waitReg (r : Nibble) : (s.enterWait r).waitReg = r := rfl
@[simp] theorem enterWait_faulted (r : Nibble) : (s.enterWait r).faulted = s.faulted := rfl
@[simp] theorem enterWait_draws (r : Nibble) : (s.enterWait r).draws = s.draws := rfl

/-! ### Register values -/

@[simp] theorem reg_setReg_self (r : Nibble) (b : Byte) : (s.setReg r b).reg r = b := by
  simp [State.reg]

theorem reg_setReg_of_ne {r q : Nibble} (h : q ≠ r) (b : Byte) : (s.setReg r b).reg q = s.reg q := by
  have : r.val ≠ q.val := fun e => h (Fin.ext e.symm)
  simp [State.reg, this]

theorem reg_setReg (r q : Nibble) (b : Byte) :
    (s.setReg r b).reg q = if q = r then b else s.reg q := by
  split
  · next h => subst h; exact reg_setReg_self s _ b
  · next h => exact reg_setReg_of_ne s h b

theorem reg_setFlag (q : Nibble) (b : Bool) :
    (s.setFlag b).reg q = if q = 15 then flagByte b else s.reg q := reg_setReg s 15 q (flagByte b)

/-- Two states with the same registers give every register the same value. -/
theorem reg_congr {s t : State} (h : t.v = s.v) (r : Nibble) : t.reg r = s.reg r := by
  simp [State.reg, h]

@[simp] theorem reg_setI (w : Word) (q : Nibble) : (s.setI w).reg q = s.reg q := rfl
@[simp] theorem reg_setPc (w : Word) (q : Nibble) : (s.setPc w).reg q = s.reg q := rfl
@[simp] theorem reg_advance (k : Nat) (q : Nibble) : (s.advance k).reg q = s.reg q := rfl
@[simp] theorem reg_setDt (b : Byte) (q : Nibble) : (s.setDt b).reg q = s.reg q := rfl
@[simp] theorem reg_setSt (b : Byte) (q : Nibble) : (s.setSt b).reg q = s.reg q := rfl
@[simp] theorem reg_setMem (m : Memory) (q : Nibble) : (s.setMem m).reg q = s.reg q := rfl
@[simp] theorem reg_setFb (d : Display) (q : Nibble) : (s.setFb d).reg q = s.reg q := rfl
@[simp] theorem reg_setPressed (p : Option Nibble) (q : Nibble) : (s.setPressed p).reg q = s.reg q := rfl
@[simp] theorem reg_setWaiting (b : Bool) (q : Nibble) : (s.setWaiting b).reg q = s.reg q := rfl
@[simp] theorem reg_setWaitReg (r : Nibble) (q : Nibble) : (s.setWaitReg r).reg q = s.reg q := rfl
@[simp] theorem reg_setStack (n : Fin 17) (k : Vector Word 16) (q : Nibble) : (s.setStack n k).reg q = s.reg q := rfl
@[simp] theorem reg_setDraws (k : Nat) (q : Nibble) : (s.setDraws k).reg q = s.reg q := rfl
@[simp] theorem reg_takeFault (f : Fault) (q : Nibble) : (takeFault f s).reg q = s.reg q := rfl
@[simp] theorem reg_enterWait (r q : Nibble) : (s.enterWait r).reg q = s.reg q := rfl

theorem reg_takeKey (r k q : Nibble) :
    (s.takeKey r k).reg q = if q = r then keyByte k else s.reg q := reg_setReg s r q (keyByte k)

/-! ### The program counter -/

@[simp] theorem wrapAddr_toNat (n : Nat) : (wrapAddr n).toNat = n % 4096 := by
  simp only [wrapAddr, BitVec.toNat_ofNat]; omega

@[simp] theorem pcPlus_toNat (k : Nat) : (s.pcPlus k).toNat = (s.pc.toNat + k) % 4096 :=
  wrapAddr_toNat _

@[simp] theorem absoluteAddr_toNat (nnn : Addr12) : (absoluteAddr nnn).toNat = nnn.toNat := by
  have := nnn.isLt
  simp only [absoluteAddr, BitVec.toNat_ofNat]; omega

@[simp] theorem glyphAddr_toNat (x : Nibble) : (glyphAddr x s).toNat = (s.reg x).toNat * 5 := by
  have := (s.reg x).isLt
  rw [glyphAddr, BitVec.toNat_ofNat, Nat.mod_eq_of_lt (by omega)]

@[simp] theorem offsetAddr_toNat (nnn : Addr12) :
    (offsetAddr nnn s).toNat = (nnn.toNat + (s.reg 0).toNat) % 4096 := wrapAddr_toNat _

theorem flagByte_toNat (b : Bool) : (flagByte b).toNat = if b = true then 1 else 0 := by
  cases b <;> rfl

@[simp] theorem keyByte_toNat (k : Nibble) : (keyByte k).toNat = k.val := by
  have := k.isLt
  simp only [keyByte, BitVec.toNat_ofNat]; omega

end Sys2Proof.Laws
end

