-- ==== Sys2Proof/Laws/Ops.lean ====
section
/-! SUPPORT. One lemma per shared operation that says everything it can do; proofs cite these and do
not unfold the operations. -/

namespace Sys2Proof.Laws

open Sys2Proof.Machine

/-! ### Access to memory -/

theorem memRead_of_lt {a : Nat} (h : a < 4096) (s : State) :
    memRead a s = .ok (Memory.byte s.mem a) := if_pos h

theorem memRead_of_ge {a : Nat} (h : 4096 ≤ a) (s : State) : memRead a s = .error (.addressError a) :=
  if_neg (Nat.not_lt.2 h)

/-- Two states whose memories agree on a byte agree on its read. -/
theorem memRead_congr {a : Nat} {s t : State} (h : Memory.byte t.mem a = Memory.byte s.mem a) :
    memRead a t = memRead a s := by simp only [memRead, h]

/-- A successful read is of an address in memory and gives its byte. -/
theorem memRead_eq_ok {a : Nat} {s : State} {b : Byte} :
    memRead a s = .ok b ↔ a < 4096 ∧ Memory.byte s.mem a = b := by
  by_cases h : a < 4096
  · simp [memRead_of_lt h, h]
  · simp [memRead_of_ge (Nat.le_of_not_lt h), h]

theorem memWrite_of_lt {a : Nat} (h : a < 4096) (b : Byte) (s : State) :
    memWrite a b s = .ok (s.setMem (Memory.put s.mem a b)) := if_pos h

theorem memWrite_of_ge {a : Nat} (h : 4096 ≤ a) (b : Byte) (s : State) :
    memWrite a b s = .error (.addressError a) := if_neg (Nat.not_lt.2 h)

theorem memReadWord_of_lt {a : Nat} (h : a + 1 < 4096) (s : State) :
    memReadWord a s = .ok (wordOfBytes (Memory.byte s.mem a) (Memory.byte s.mem (a + 1))) := if_pos h

theorem memReadWord_of_ge {a : Nat} (h : 4096 ≤ a + 1) (s : State) :
    memReadWord a s = .error (.addressError a) := if_neg (Nat.not_lt.2 h)

/-- A successful word read lies in memory and joins its two bytes. -/
theorem memReadWord_eq_ok {a : Nat} {s : State} {w : Word} :
    memReadWord a s = .ok w ↔
      a + 1 < 4096 ∧ wordOfBytes (Memory.byte s.mem a) (Memory.byte s.mem (a + 1)) = w := by
  by_cases h : a + 1 < 4096
  · simp [memReadWord_of_lt h, h]
  · simp [memReadWord_of_ge (Nat.le_of_not_lt h), h]

/-- What a slice read answers, under either setting. -/
theorem memReadSliceWith_eq (touch : Bool) (a len : Nat) (s : State) :
    memReadSliceWith touch a len s =
      if 4096 < a + len ∨ (touch = true ∧ 0 < len ∧ a + len = 4096) then .error (.addressError a)
      else .ok ((List.range len).map fun k => Memory.byte s.mem (a + k)) := by
  simp only [memReadSliceWith, memSize, Bool.and_eq_true, decide_eq_true_eq, and_assoc]
  by_cases h : 4096 < a + len <;> by_cases h2 : a + len = 4096 <;> simp [h, h2]

/-- What the slice read of this machine answers. -/
theorem memReadSlice_eq (a len : Nat) (s : State) :
    memReadSlice a len s =
      if 4096 < a + len then .error (.addressError a)
      else .ok ((List.range len).map fun k => Memory.byte s.mem (a + k)) := by
  rw [memReadSlice, memReadSliceWith_eq]
  simp [Config.sliceTouchFaults]

/-- What a run of byte writes does: the bytes below the top of memory are written, and the fault, if
the range passes it, is at the first address outside. -/
theorem writeBytes_eq (bytes : List Byte) (a : Nat) (s : State) :
    writeBytes a bytes s =
      (s.setMem (Memory.putAll s.mem a (bytes.take (4096 - a))),
        if bytes = [] ∨ a + bytes.length ≤ 4096 then none else some (.addressError (max a 4096))) := by
  induction bytes generalizing a s with
  | nil => simp [writeBytes, Memory.putAll, State.setMem]
  | cons b bytes ih =>
    rw [writeBytes]
    by_cases h : a < 4096
    · rw [memWrite_of_lt h]
      simp only [ih]
      obtain ⟨j, hj⟩ : ∃ j, 4096 - a = j + 1 := ⟨4096 - a - 1, by omega⟩
      have hj2 : 4096 - (a + 1) = j := by omega
      simp only [hj, hj2, List.take_succ_cons, Memory.putAll, setMem_mem, List.length_cons,
        List.cons_ne_nil, false_or, Prod.mk.injEq]
      refine ⟨rfl, ?_⟩
      by_cases hb : bytes = []
      · subst hb; simp; omega
      · have : 0 < bytes.length := List.length_pos_iff.2 hb
        by_cases h2 : a + 1 + bytes.length ≤ 4096
        · simp [h2]; omega
        · have e : max (a + 1) 4096 = max a 4096 := by omega
          simp [h2, hb, e]; omega
    · rw [memWrite_of_ge (by omega)]
      have e : 4096 - a = 0 := by omega
      simp only [e, List.take_zero, Memory.putAll, List.length_cons, List.cons_ne_nil, false_or]
      rw [if_neg (by omega)]
      simp only [Prod.mk.injEq, Option.some.injEq, Fault.addressError.injEq]
      exact ⟨rfl, by omega⟩

/-- A load of register `k` of a list from `a + k` on leaves everything but the registers alone. -/
theorem readRegs_fields (rs : List Nibble) (a : Nat) (s : State) :
    ∃ v, (readRegs a rs s).1 = { s with v := v } := by
  induction rs generalizing a s with
  | nil => exact ⟨s.v, rfl⟩
  | cons r rs ih =>
    rw [readRegs]
    by_cases h : a < 4096
    · rw [memRead_of_lt h]
      obtain ⟨v, e⟩ := ih (a + 1) (s.setReg r (Memory.byte s.mem a))
      exact ⟨v, e⟩
    · rw [memRead_of_ge (by omega)]
      exact ⟨s.v, rfl⟩

/-- The registers `j`, `j + 1`, ..., `j + n - 1`, ascending. -/
theorem regsUpTo_eq (x : Nibble) :
    regsUpTo x = (List.range' 0 (x.val + 1)).map (Fin.ofNat 16) := by
  rw [regsUpTo, List.range_eq_range']

/-- What a load of consecutive registers does to each register, and where it faults. -/
theorem readRegs_range' (n j a : Nat) (hj : j + n ≤ 16) (s : State) :
    (∀ q : Nibble, (readRegs (a + j) ((List.range' j n).map (Fin.ofNat 16)) s).1.reg q =
      if j ≤ q.val ∧ q.val < j + n ∧ a + q.val < 4096 then Memory.byte s.mem (a + q.val)
      else s.reg q) ∧
    (readRegs (a + j) ((List.range' j n).map (Fin.ofNat 16)) s).2 =
      if n = 0 ∨ a + j + n ≤ 4096 then none else some (.addressError (max (a + j) 4096)) := by
  induction n generalizing j s with
  | zero =>
    refine ⟨fun q => ?_, by simp [readRegs]⟩
    rw [if_neg (by omega)]
    rfl
  | succ n ih =>
    simp only [List.range'_succ, List.map_cons, readRegs]
    by_cases h : a + j < 4096
    · rw [memRead_of_lt h]
      have := ih (j + 1) (by omega) (s.setReg (Fin.ofNat 16 j) (Memory.byte s.mem (a + j)))
      simp only [← Nat.add_assoc] at this
      refine ⟨fun q => ?_, ?_⟩
      · rw [this.1 q]
        have hv : (Fin.ofNat 16 j).val = j := by simp [Fin.ofNat]; omega
        by_cases hq : q.val = j
        · have hq2 : q = Fin.ofNat 16 j := Fin.ext (by omega)
          rw [if_neg (by omega), if_pos (by omega), hq2, reg_setReg_self, hv]
        · have hq2 : q ≠ Fin.ofNat 16 j := fun e => hq (by rw [e, hv])
          rw [reg_setReg_of_ne _ hq2, setReg_mem]
          by_cases hr : j + 1 ≤ q.val ∧ q.val < j + 1 + n ∧ a + q.val < 4096
          · rw [if_pos hr, if_pos (by omega)]
          · rw [if_neg hr, if_neg (by omega)]
      · rw [this.2]
        by_cases h2 : n = 0 ∨ a + j + 1 + n ≤ 4096
        · rw [if_pos h2, if_pos (by omega)]
        · rw [if_neg h2, if_neg (by omega)]
          have : max (a + j + 1) 4096 = max (a + j) 4096 := by omega
          rw [this]
    · rw [memRead_of_ge (by omega)]
      refine ⟨fun q => ?_, ?_⟩
      · rw [if_neg (by omega)]
      · rw [if_neg (by omega)]
        have : max (a + j) 4096 = a + j := by omega
        rw [this]

/-- What the register load of LD Vx, [I] does to each register, and where it faults. -/
theorem readRegs_regsUpTo (a : Nat) (x : Nibble) (s : State) :
    (∀ q : Nibble, (readRegs a (regsUpTo x) s).1.reg q =
      if q ≤ x ∧ a + q.val < 4096 then Memory.byte s.mem (a + q.val) else s.reg q) ∧
    (readRegs a (regsUpTo x) s).2 =
      if a + x.val < 4096 then none else some (.addressError (max a 4096)) := by
  have h := readRegs_range' (x.val + 1) 0 a (by omega) s
  rw [Nat.add_zero] at h
  rw [regsUpTo_eq]
  refine ⟨fun q => ?_, ?_⟩
  · rw [h.1 q]
    by_cases hq : q ≤ x ∧ a + q.val < 4096
    · have := Fin.le_def.1 hq.1
      rw [if_pos hq, if_pos (by omega)]
    · rw [if_neg hq, if_neg]
      intro ⟨_, h2, h3⟩
      exact hq ⟨Fin.le_def.2 (by omega), h3⟩
  · rw [h.2]
    by_cases h2 : a + x.val < 4096
    · rw [if_pos h2, if_pos (by omega)]
    · rw [if_neg h2, if_neg (by omega)]

/-! ### The bytes of a register dump -/

@[simp] theorem dumpBytes_length (x : Nibble) (s : State) : (dumpBytes x s).length = x.val + 1 := by
  simp [dumpBytes, regsUpTo]

theorem dumpBytes_getElem (x : Nibble) (s : State) (k : Nat) (h : k < (dumpBytes x s).length) :
    (dumpBytes x s)[k] = s.reg (Fin.ofNat 16 k) := by
  simp [dumpBytes, regsUpTo]

/-! ### The call stack -/

theorem pushStack_of_lt (w : Word) (s : State) (h : s.sp.val < 16) :
    pushStack w s = .ok (s.setStack ⟨s.sp.val + 1, by omega⟩ (s.stack.set s.sp.val w h)) := dif_pos h

theorem pushStack_of_full (w : Word) (s : State) (h : s.sp.val = 16) :
    pushStack w s = .error .stackOverflow := dif_neg (by omega)

theorem popStack_of_pos (s : State) (h : 0 < s.sp.val) :
    popStack s = .ok (s.stack[s.sp.val - 1], s.setStack ⟨s.sp.val - 1, by omega⟩ s.stack) := dif_pos h

theorem popStack_of_empty (s : State) (h : s.sp.val = 0) : popStack s = .error .stackUnderflow :=
  dif_neg (by omega)

/-! ### Ends of instructions -/

/-- A transfer that met no fault moves on, and one that met a fault raises it. -/
theorem finishTransfer_eq (r : State × Option Fault) :
    finishTransfer r = .next (match r.2 with | none => r.1.advance 2 | some f => takeFault f r.1) := by
  obtain ⟨s, _ | f⟩ := r <;> rfl

/-- The pressed key is the one a byte names, all eight bits counted. -/
theorem keyIs_iff (b : Byte) (s : State) :
    keyIs b s = true ↔ ∃ k, s.pressed = some k ∧ k.val = b.toNat := by
  unfold keyIs
  cases hp : s.pressed with
  | none => simp
  | some k => simp [← BitVec.toNat_inj]

/-- A step in WaitingForKey: the wait ends when a key is present, and otherwise nothing changes. -/
theorem stepWaiting_cases (s : State) :
    (s.pressed = none ∧ stepWaiting s = .next s) ∨
    ∃ k, s.pressed = some k ∧
      stepWaiting s = .next (((s.takeKey s.waitReg k).setWaiting false).advance 2) := by
  unfold stepWaiting
  cases hp : s.pressed with
  | none => exact .inl ⟨rfl, rfl⟩
  | some k => exact .inr ⟨k, rfl, rfl⟩

/-! ### The step -/

/-- Everything a step can do (40_step_cycle.md rule R121). -/
theorem step_cases (s : State) :
    (∃ f, s.faulted = some f ∧ step s = .fault f) ∨
    (s.faulted = none ∧ s.waiting = true ∧ step s = stepWaiting s) ∨
    (s.faulted = none ∧ s.waiting = false ∧
      ((∃ f, fetch s = .error f ∧ step s = .next (takeFault f s)) ∨
        ∃ w, fetch s = .ok w ∧
          ((∃ u, decodeWord w = .unrecognized u ∧
              step s = .next (takeFault (.illegalOpcode u) s)) ∨
            ∃ i, decodeWord w = .instr i ∧ step s = exec i s))) := by
  unfold step
  cases hf : s.faulted with
  | some f => exact .inl ⟨f, rfl, rfl⟩
  | none =>
    refine .inr ?_
    cases hw : s.waiting with
    | true => exact .inl ⟨rfl, rfl, rfl⟩
    | false =>
      refine .inr ⟨rfl, rfl, ?_⟩
      cases he : fetch s with
      | error f => exact .inl ⟨f, rfl, rfl⟩
      | ok w =>
        refine .inr ⟨w, rfl, ?_⟩
        simp only [Bool.false_eq_true, if_false]
        cases hd : decodeWord w with
        | unrecognized u => exact .inl ⟨u, rfl, rfl⟩
        | instr i => exact .inr ⟨i, rfl, rfl⟩

end Sys2Proof.Laws
end

