-- ==== Sys2Proof/Laws/PerInstr.lean ====
section
/-! SUPPORT. The per-instruction family `Encoding`: the top nibble of every instruction's word is its
row's in 30_encoding.md rule R94, one lemma per constructor. -/

namespace Sys2Proof.Laws

/-- The top nibble of an instruction's row in the opcode map (R94). -/
def topNibble : Instr → Nat
  | .sys _ => 0x0
  | .cls => 0x0
  | .ret => 0x0
  | .jp _ => 0x1
  | .call _ => 0x2
  | .seByte _ _ => 0x3
  | .sneByte _ _ => 0x4
  | .seReg _ _ => 0x5
  | .ldByte _ _ => 0x6
  | .addByte _ _ => 0x7
  | .ldReg _ _ => 0x8
  | .orReg _ _ => 0x8
  | .andReg _ _ => 0x8
  | .xorReg _ _ => 0x8
  | .addReg _ _ => 0x8
  | .subReg _ _ => 0x8
  | .shr _ _ => 0x8
  | .subn _ _ => 0x8
  | .shl _ _ => 0x8
  | .sneReg _ _ => 0x9
  | .ldI _ => 0xA
  | .jpV0 _ => 0xB
  | .rnd _ _ => 0xC
  | .drw _ _ _ => 0xD
  | .skp _ => 0xE
  | .sknp _ => 0xE
  | .ldVxDt _ => 0xF
  | .ldVxK _ => 0xF
  | .ldDtVx _ => 0xF
  | .ldStVx _ => 0xF
  | .addI _ => 0xF
  | .ldF _ => 0xF
  | .ldB _ => 0xF
  | .ldMemVx _ => 0xF
  | .ldVxMem _ => 0xF

/-- The encoder puts the row's top nibble where the decoder looks for it (R91, R93). -/
def Encoding.Statement (i : Instr) : Prop := fieldOp (encode i) = topNibble i

theorem Encoding.sys (nnn : Addr12) : Encoding.Statement (.sys nnn) := fieldOp_packA _ (by decide) nnn
theorem Encoding.cls : Encoding.Statement (.cls) := rfl
theorem Encoding.ret : Encoding.Statement (.ret) := rfl
theorem Encoding.jp (nnn : Addr12) : Encoding.Statement (.jp nnn) := fieldOp_packA _ (by decide) nnn
theorem Encoding.call (nnn : Addr12) : Encoding.Statement (.call nnn) := fieldOp_packA _ (by decide) nnn
theorem Encoding.seByte (x : Nibble) (kk : Byte) : Encoding.Statement (.seByte x kk) := fieldOp_packXK _ (by decide) x kk
theorem Encoding.sneByte (x : Nibble) (kk : Byte) : Encoding.Statement (.sneByte x kk) := fieldOp_packXK _ (by decide) x kk
theorem Encoding.seReg (x : Nibble) (y : Nibble) : Encoding.Statement (.seReg x y) := fieldOp_packXYN _ (by decide) x y _
theorem Encoding.ldByte (x : Nibble) (kk : Byte) : Encoding.Statement (.ldByte x kk) := fieldOp_packXK _ (by decide) x kk
theorem Encoding.addByte (x : Nibble) (kk : Byte) : Encoding.Statement (.addByte x kk) := fieldOp_packXK _ (by decide) x kk
theorem Encoding.ldReg (x : Nibble) (y : Nibble) : Encoding.Statement (.ldReg x y) := fieldOp_packXYN _ (by decide) x y _
theorem Encoding.orReg (x : Nibble) (y : Nibble) : Encoding.Statement (.orReg x y) := fieldOp_packXYN _ (by decide) x y _
theorem Encoding.andReg (x : Nibble) (y : Nibble) : Encoding.Statement (.andReg x y) := fieldOp_packXYN _ (by decide) x y _
theorem Encoding.xorReg (x : Nibble) (y : Nibble) : Encoding.Statement (.xorReg x y) := fieldOp_packXYN _ (by decide) x y _
theorem Encoding.addReg (x : Nibble) (y : Nibble) : Encoding.Statement (.addReg x y) := fieldOp_packXYN _ (by decide) x y _
theorem Encoding.subReg (x : Nibble) (y : Nibble) : Encoding.Statement (.subReg x y) := fieldOp_packXYN _ (by decide) x y _
theorem Encoding.shr (x : Nibble) (y : Nibble) : Encoding.Statement (.shr x y) := fieldOp_packXYN _ (by decide) x y _
theorem Encoding.subn (x : Nibble) (y : Nibble) : Encoding.Statement (.subn x y) := fieldOp_packXYN _ (by decide) x y _
theorem Encoding.shl (x : Nibble) (y : Nibble) : Encoding.Statement (.shl x y) := fieldOp_packXYN _ (by decide) x y _
theorem Encoding.sneReg (x : Nibble) (y : Nibble) : Encoding.Statement (.sneReg x y) := fieldOp_packXYN _ (by decide) x y _
theorem Encoding.ldI (nnn : Addr12) : Encoding.Statement (.ldI nnn) := fieldOp_packA _ (by decide) nnn
theorem Encoding.jpV0 (nnn : Addr12) : Encoding.Statement (.jpV0 nnn) := fieldOp_packA _ (by decide) nnn
theorem Encoding.rnd (x : Nibble) (kk : Byte) : Encoding.Statement (.rnd x kk) := fieldOp_packXK _ (by decide) x kk
theorem Encoding.drw (x : Nibble) (y : Nibble) (n : Nibble) : Encoding.Statement (.drw x y n) := fieldOp_packXYN _ (by decide) x y n
theorem Encoding.skp (x : Nibble) : Encoding.Statement (.skp x) := fieldOp_packXK _ (by decide) x _
theorem Encoding.sknp (x : Nibble) : Encoding.Statement (.sknp x) := fieldOp_packXK _ (by decide) x _
theorem Encoding.ldVxDt (x : Nibble) : Encoding.Statement (.ldVxDt x) := fieldOp_packXK _ (by decide) x _
theorem Encoding.ldVxK (x : Nibble) : Encoding.Statement (.ldVxK x) := fieldOp_packXK _ (by decide) x _
theorem Encoding.ldDtVx (x : Nibble) : Encoding.Statement (.ldDtVx x) := fieldOp_packXK _ (by decide) x _
theorem Encoding.ldStVx (x : Nibble) : Encoding.Statement (.ldStVx x) := fieldOp_packXK _ (by decide) x _
theorem Encoding.addI (x : Nibble) : Encoding.Statement (.addI x) := fieldOp_packXK _ (by decide) x _
theorem Encoding.ldF (x : Nibble) : Encoding.Statement (.ldF x) := fieldOp_packXK _ (by decide) x _
theorem Encoding.ldB (x : Nibble) : Encoding.Statement (.ldB x) := fieldOp_packXK _ (by decide) x _
theorem Encoding.ldMemVx (x : Nibble) : Encoding.Statement (.ldMemVx x) := fieldOp_packXK _ (by decide) x _
theorem Encoding.ldVxMem (x : Nibble) : Encoding.Statement (.ldVxMem x) := fieldOp_packXK _ (by decide) x _

end Sys2Proof.Laws
end

