-- ==== Sys2Proof/Laws/System.lean ====
section
/-! SUPPORT. The host's events: one lemma per field, and what a load answers. -/

namespace Sys2Proof.Laws

open Sys2Proof.Machine

variable (s : State)

/-! ### reset() -/

@[simp] theorem resetEvent_mem : (resetEvent s).mem = Memory.putAll s.mem 0 Config.font := by simp only [resetEvent]
@[simp] theorem resetEvent_draws : (resetEvent s).draws = s.draws := by simp only [resetEvent]
@[simp] theorem resetEvent_v : (resetEvent s).v = Vector.replicate 16 0#8 := by
  simp only [resetEvent]; rfl
@[simp] theorem resetEvent_i : (resetEvent s).i = 0x200#16 := by
  simp only [resetEvent]; rfl
@[simp] theorem resetEvent_pc : (resetEvent s).pc = 0x200#16 := by
  simp only [resetEvent]; rfl
@[simp] theorem resetEvent_dt : (resetEvent s).dt = 0#8 := by
  simp only [resetEvent]; rfl
@[simp] theorem resetEvent_st : (resetEvent s).st = 0#8 := by
  simp only [resetEvent]; rfl
@[simp] theorem resetEvent_sp : (resetEvent s).sp = 0 := by
  simp only [resetEvent]; rfl
@[simp] theorem resetEvent_stack : (resetEvent s).stack = Vector.replicate 16 0#16 := by
  simp only [resetEvent]; rfl
@[simp] theorem resetEvent_fb : (resetEvent s).fb = clearDisplay := by
  simp only [resetEvent]; rfl
@[simp] theorem resetEvent_pressed : (resetEvent s).pressed = none := by
  simp only [resetEvent]; rfl
@[simp] theorem resetEvent_waiting : (resetEvent s).waiting = false := by
  simp only [resetEvent]; rfl
@[simp] theorem resetEvent_waitReg : (resetEvent s).waitReg = 0 := by
  simp only [resetEvent]; rfl
@[simp] theorem resetEvent_faulted : (resetEvent s).faulted = none := by
  simp only [resetEvent]; rfl

@[simp] theorem font_length : Config.font.length = 80 := by decide

/-! ### tickTimers() -/

@[simp] theorem tickTimers_dt : (tickTimers s).dt = countDown s.dt := rfl
@[simp] theorem tickTimers_st : (tickTimers s).st = countDown s.st := rfl
@[simp] theorem reg_tickTimers (r : Nibble) : (tickTimers s).reg r = s.reg r := rfl
@[simp] theorem tickTimers_mem : (tickTimers s).mem = s.mem := rfl
@[simp] theorem tickTimers_v : (tickTimers s).v = s.v := rfl
@[simp] theorem tickTimers_i : (tickTimers s).i = s.i := rfl
@[simp] theorem tickTimers_pc : (tickTimers s).pc = s.pc := rfl
@[simp] theorem tickTimers_sp : (tickTimers s).sp = s.sp := rfl
@[simp] theorem tickTimers_stack : (tickTimers s).stack = s.stack := rfl
@[simp] theorem tickTimers_fb : (tickTimers s).fb = s.fb := rfl
@[simp] theorem tickTimers_pressed : (tickTimers s).pressed = s.pressed := rfl
@[simp] theorem tickTimers_waiting : (tickTimers s).waiting = s.waiting := rfl
@[simp] theorem tickTimers_waitReg : (tickTimers s).waitReg = s.waitReg := rfl
@[simp] theorem tickTimers_faulted : (tickTimers s).faulted = s.faulted := rfl
@[simp] theorem tickTimers_draws : (tickTimers s).draws = s.draws := rfl

@[simp] theorem countDown_toNat (b : Byte) : (countDown b).toNat = b.toNat - 1 := by
  have := b.isLt
  unfold countDown
  split
  · simp only [BitVec.toNat_sub, BitVec.toNat_ofNat]; omega
  · omega

/-! ### Keys and the forced clear -/

theorem clearKey_cases (k : Nibble) :
    (s.pressed = some k ∧ clearKey k s = s.setPressed none) ∨
    (s.pressed ≠ some k ∧ clearKey k s = s) := by
  unfold clearKey
  split
  · next h => exact .inl ⟨h, rfl⟩
  · next h => exact .inr ⟨h, rfl⟩

/-! ### loadProgram() -/

theorem loadProgram_of_fits (bytes : List Byte) (h : bytes.length ≤ 3584) :
    loadProgram bytes s = .ok (s.setMem (Memory.putAll s.mem 0x200 bytes)) := by
  unfold loadProgram loadBytes progBase memSize
  rw [if_neg (by omega), if_neg (by omega)]

theorem loadProgram_of_long (bytes : List Byte) (h : 3584 < bytes.length) :
    loadProgram bytes s = .error .memoryOverflow := by
  unfold loadProgram loadBytes progBase memSize
  rw [if_neg (by omega), if_pos (by omega)]

/-- Everything a load event can do: write the program, be refused because it would rewrite the waiting
instruction, or overflow; in the last two it changes nothing. -/
theorem loadEvent_cases (bytes : List Byte) :
    (bytes.length ≤ 3584 ∧ rewritesWaitInstruction s (s.setMem (Memory.putAll s.mem 0x200 bytes)) = false ∧
      loadEvent bytes s = (s.setMem (Memory.putAll s.mem 0x200 bytes), .ok)) ∨
    (bytes.length ≤ 3584 ∧ rewritesWaitInstruction s (s.setMem (Memory.putAll s.mem 0x200 bytes)) = true ∧
      loadEvent bytes s = (s, .refused .loadRewritesWaitInstruction)) ∨
    (3584 < bytes.length ∧ loadEvent bytes s = (s, .fault .memoryOverflow)) := by
  unfold loadEvent
  by_cases h : bytes.length ≤ 3584
  · rw [loadProgram_of_fits s bytes h]
    simp only
    split
    · next hr => exact .inr (.inl ⟨h, hr, rfl⟩)
    · next hr => exact .inl ⟨h, by simpa using hr, rfl⟩
  · rw [loadProgram_of_long s bytes (by omega)]
    exact .inr (.inr ⟨by omega, rfl⟩)

/-- A load rewrites the waiting instruction exactly when a wait is pending and a byte at `PC` or
`PC + 1` changes. -/
theorem rewritesWaitInstruction_iff (t : State) :
    rewritesWaitInstruction s t = true ↔ s.waiting = true ∧
      ¬ (Memory.byte t.mem s.pc.toNat = Memory.byte s.mem s.pc.toNat ∧
        Memory.byte t.mem (s.pc.toNat + 1) = Memory.byte s.mem (s.pc.toNat + 1)) := by
  simp [rewritesWaitInstruction, Decidable.imp_iff_not_or]

end Sys2Proof.Laws
end

