-- ==== Sys2Proof/Tests/Slice0.lean ====
section
/-! SUPPORT. The model's own tests, each a named theorem about one step: the well-formedness smoke test,
one decoded word per constructor, vectors of 95_test_vectors.md, and for every obligation with
hypotheses a concrete state that meets them. Expected values come from 95_test_vectors.md. -/

namespace Sys2Proof.Tests

open Sys2Proof Sys2Proof.Machine Sys2Proof.Safety

/-! ### Helpers -/

/-- The state a step reached, if it reached one. -/
def next? : Result → Option State
  | .next s => some s
  | .fault _ => none
  | .refused _ => none

/-- The reset state with some registers set. -/
def withRegs (l : List (Nibble × Byte)) : State := l.foldl (fun s p => s.setReg p.1 p.2) State.reset

/-- One step of `s` on the word `w`, put at its `PC`. -/
def run (w : Nat) (s : State) : Option State := next? (step (s.withFetchWord 16 w))

/-- One step on the word `w`: the registers `rs`, and `PC`. -/
def after (w : Nat) (s : State) (rs : List Nibble) : Option (List Nat × Nat) :=
  (run w s).map fun t => (rs.map fun r => (t.reg r).toNat, t.pc.toNat)

/-- One step on the word `w`: the bytes at the addresses `as`, `PC` and the fault. -/
def stored (w : Nat) (s : State) (as : List Nat) : Option (List Nat × Nat × Option Fault) :=
  (run w s).map fun t => (as.map fun a => (Memory.byte t.mem a).toNat, t.pc.toNat, t.faulted)

/-- The reset state with bytes stored from `a` on, `I = i`. -/
def withBytes (i a : Nat) (bytes : List Byte) (s : State) : State :=
  (s.setMem (Memory.putAll s.mem a bytes)).setI (BitVec.ofNat 16 i)

/-- The pixels of a display at some points `(x, y)`. -/
def at_points (d : Display) (ps : List (Fin 64 × Fin 32)) : List Bool := ps.map fun p => pixel d p.1 p.2

/-! ### Well-formed instructions (41_control_flow.md rule R140) -/

theorem test_wf_sys_not_cls : (Instr.sys 0x0E0#12).wellFormed = false := by decide
theorem test_wf_sys_not_ret : (Instr.sys 0x0EE#12).wellFormed = false := by decide
theorem test_wf_sys_other : (Instr.sys 0x0E1#12).wellFormed = true := by decide
theorem test_wf_drw : (Instr.drw 15 15 15).wellFormed = true := by decide

/-! ### Decoding, one word per constructor (95_test_vectors.md sections 1.1 and 2.1) -/

theorem test_decode_cls : decodeTableWord 16 0x00E0 = some (.cls) := by decide
theorem test_decode_ret : decodeTableWord 16 0x00EE = some (.ret) := by decide
theorem test_decode_sys : decodeTableWord 16 0x0123 = some (.sys 0x123#12) := by decide
theorem test_decode_jp : decodeTableWord 16 0x1ABC = some (.jp 0xABC#12) := by decide
theorem test_decode_call : decodeTableWord 16 0x2ABC = some (.call 0xABC#12) := by decide
theorem test_decode_seByte : decodeTableWord 16 0x3A12 = some (.seByte 0xA 0x12#8) := by decide
theorem test_decode_sneByte : decodeTableWord 16 0x4A12 = some (.sneByte 0xA 0x12#8) := by decide
theorem test_decode_seReg : decodeTableWord 16 0x5AB0 = some (.seReg 0xA 0xB) := by decide
theorem test_decode_ldByte : decodeTableWord 16 0x6A12 = some (.ldByte 0xA 0x12#8) := by decide
theorem test_decode_addByte : decodeTableWord 16 0x7A12 = some (.addByte 0xA 0x12#8) := by decide
theorem test_decode_ldReg : decodeTableWord 16 0x8AB0 = some (.ldReg 0xA 0xB) := by decide
theorem test_decode_orReg : decodeTableWord 16 0x8AB1 = some (.orReg 0xA 0xB) := by decide
theorem test_decode_andReg : decodeTableWord 16 0x8AB2 = some (.andReg 0xA 0xB) := by decide
theorem test_decode_xorReg : decodeTableWord 16 0x8AB3 = some (.xorReg 0xA 0xB) := by decide
theorem test_decode_addReg : decodeTableWord 16 0x8AB4 = some (.addReg 0xA 0xB) := by decide
theorem test_decode_subReg : decodeTableWord 16 0x8AB5 = some (.subReg 0xA 0xB) := by decide
theorem test_decode_shr : decodeTableWord 16 0x8AB6 = some (.shr 0xA 0xB) := by decide
theorem test_decode_subn : decodeTableWord 16 0x8AB7 = some (.subn 0xA 0xB) := by decide
theorem test_decode_shl : decodeTableWord 16 0x8ABE = some (.shl 0xA 0xB) := by decide
theorem test_decode_sneReg : decodeTableWord 16 0x9AB0 = some (.sneReg 0xA 0xB) := by decide
theorem test_decode_ldI : decodeTableWord 16 0xA123 = some (.ldI 0x123#12) := by decide
theorem test_decode_jpV0 : decodeTableWord 16 0xBABC = some (.jpV0 0xABC#12) := by decide
theorem test_decode_rnd : decodeTableWord 16 0xCA12 = some (.rnd 0xA 0x12#8) := by decide
theorem test_decode_drw : decodeTableWord 16 0xD123 = some (.drw 1 2 3) := by decide
theorem test_decode_skp : decodeTableWord 16 0xEA9E = some (.skp 0xA) := by decide
theorem test_decode_sknp : decodeTableWord 16 0xEAA1 = some (.sknp 0xA) := by decide
theorem test_decode_ldVxDt : decodeTableWord 16 0xFD07 = some (.ldVxDt 0xD) := by decide
theorem test_decode_ldVxK : decodeTableWord 16 0xFA0A = some (.ldVxK 0xA) := by decide
theorem test_decode_ldDtVx : decodeTableWord 16 0xFA15 = some (.ldDtVx 0xA) := by decide
theorem test_decode_ldStVx : decodeTableWord 16 0xFA18 = some (.ldStVx 0xA) := by decide
theorem test_decode_addI : decodeTableWord 16 0xFA1E = some (.addI 0xA) := by decide
theorem test_decode_ldF : decodeTableWord 16 0xFA29 = some (.ldF 0xA) := by decide
theorem test_decode_ldB : decodeTableWord 16 0xFA33 = some (.ldB 0xA) := by decide
theorem test_decode_ldMemVx : decodeTableWord 16 0xFA55 = some (.ldMemVx 0xA) := by decide
theorem test_decode_ldVxMem : decodeTableWord 16 0xFA65 = some (.ldVxMem 0xA) := by decide

/-- The illegal words of 95_test_vectors.md section 2.2 that have no tag at all. -/
theorem test_decode_illegal :
    ([0x5121, 0x512F, 0x8128, 0x8129, 0x812A, 0x812B, 0x812C, 0x812D, 0x812F, 0x9121, 0xE19F, 0xE100,
      0xE1A0, 0xF100, 0xF156, 0xF1FF].all fun w => (decodeTableWord 16 w).isNone) = true := by decide

/-- The bytes of a word lie in memory high byte first (20_memory.md rule R63). -/
theorem test_fetch_big_endian :
    memReadWord 0x300 (withBytes 0 0x300 [0x12#8, 0x34#8] State.reset) = .ok 0x1234#16 := by
  rw [Laws.memReadWord_of_lt (by decide)]; decide

/-! ### One step of each instruction (95_test_vectors.md sections 1.3 to 1.6 and 2.2 to 2.7) -/

theorem test_sys :
    (run 0x0123 State.reset).map (fun t => (t.faulted, t.pc)) =
      some (some (.illegalOpcode 0x0123#16), 0x200#16) := by decide
theorem test_cls :
    (run 0x00E0 (State.reset.setFb (putPixel clearDisplay 63 31 true))).map
        (fun t => (at_points t.fb [(63, 31), (0, 0)], t.pc)) =
      some ([false, false], 0x202#16) := by decide
theorem test_ret :
    (run 0x00EE ((State.reset.setStack 1 (State.reset.stack.set 0 0x202#16)).setPc 0x300#16)).map
        (fun t => (t.sp, t.pc)) =
      some (0, 0x202#16) := by decide
theorem test_ret_underflow :
    (run 0x00EE State.reset).map (fun t => (t.sp, t.pc, t.faulted)) =
      some (0, 0x200#16, some .stackUnderflow) := by decide
theorem test_jp : after 0x1FFF State.reset [] = some ([], 0xFFF) := by decide
theorem test_call_wraps :
    (run 0x2300 (State.reset.setPc 0xFFE#16)).map (fun t => (t.stack[0], t.sp, t.pc)) =
      some (0x000#16, 1, 0x300#16) := by decide
theorem test_call_overflow :
    (run 0x2300 (State.reset.setStack 16 State.reset.stack)).map (fun t => (t.sp, t.pc, t.faulted)) =
      some (16, 0x200#16, some .stackOverflow) := by decide
theorem test_se_byte_equal : after 0x3342 (withRegs [(3, 0x42#8)]) [] = some ([], 0x204) := by decide
theorem test_se_byte_wraps : after 0x3100 (State.reset.setPc 0xFFE#16) [] = some ([], 0x002) := by decide
theorem test_sne_byte_equal : after 0x4342 (withRegs [(3, 0x42#8)]) [] = some ([], 0x202) := by decide
theorem test_sne_byte_differs : after 0x4300 (withRegs [(3, 0x42#8)]) [] = some ([], 0x204) := by decide
theorem test_se_reg_equal :
    after 0x5120 (withRegs [(1, 7#8), (2, 7#8)]) [] = some ([], 0x204) := by decide
theorem test_se_reg_differs :
    after 0x5120 (withRegs [(1, 7#8), (2, 8#8)]) [] = some ([], 0x202) := by decide
theorem test_sne_reg_differs :
    after 0x9120 (withRegs [(1, 7#8), (2, 8#8)]) [] = some ([], 0x204) := by decide
theorem test_sne_reg_same_register :
    after 0x9110 (withRegs [(1, 7#8)]) [] = some ([], 0x202) := by decide
theorem test_jp_v0_wraps : after 0xBFFE (withRegs [(0, 4#8)]) [] = some ([], 0x002) := by decide
theorem test_ld_byte_flag : after 0x6F07 State.reset [15] = some ([0x07], 0x202) := by decide
theorem test_ld_byte_wraps :
    after 0x6001 (State.reset.setPc 0xFFE#16) [0] = some ([1], 0x000) := by decide
theorem test_add_byte_keeps_flag :
    after 0x7101 (withRegs [(1, 0xFF#8), (15, 0x55#8)]) [1, 15] = some ([0x00, 0x55], 0x202) := by decide
theorem test_add_byte_to_flag :
    after 0x7F01 (withRegs [(15, 0xFF#8)]) [15] = some ([0x00], 0x202) := by decide
theorem test_ld_reg :
    after 0x8AB0 (withRegs [(11, 0x33#8)]) [10, 11] = some ([0x33, 0x33], 0x202) := by decide
theorem test_or :
    after 0x8121 (withRegs [(1, 0xF0#8), (2, 0x3C#8), (15, 0x55#8)]) [1, 15] =
      some ([0xFC, 0x55], 0x202) := by decide
theorem test_and :
    after 0x8122 (withRegs [(1, 0xF0#8), (2, 0x3C#8), (15, 0x55#8)]) [1, 15] =
      some ([0x30, 0x55], 0x202) := by decide
theorem test_xor :
    after 0x8123 (withRegs [(1, 0xF0#8), (2, 0x3C#8), (15, 0x55#8)]) [1, 15] =
      some ([0xCC, 0x55], 0x202) := by decide
theorem test_xor_same_register :
    after 0x8113 (withRegs [(1, 0xA5#8)]) [1] = some ([0x00], 0x202) := by decide
theorem test_add_reg_carry :
    after 0x8124 (withRegs [(1, 0x8C#8), (2, 0xF0#8)]) [1, 15] = some ([0x7C, 1], 0x202) := by decide
theorem test_add_reg_into_flag :
    after 0x8F14 (withRegs [(15, 0x10#8), (1, 0xF5#8)]) [15] = some ([1], 0x202) := by decide
theorem test_sub_borrow :
    after 0x8125 (withRegs [(1, 0x45#8), (2, 0x67#8)]) [1, 15] = some ([0xDE, 0], 0x202) := by decide
theorem test_sub_equal :
    after 0x8125 (withRegs [(1, 5#8), (2, 5#8)]) [1, 15] = some ([0, 1], 0x202) := by decide
theorem test_subn_borrow :
    after 0x8127 (withRegs [(1, 0x67#8), (2, 0x45#8)]) [1, 15] = some ([0xDE, 0], 0x202) := by decide
theorem test_subn_no_borrow :
    after 0x8127 (withRegs [(1, 0x45#8), (2, 0x67#8)]) [1, 15] = some ([0x22, 1], 0x202) := by decide
theorem test_shr_same_register :
    after 0x8116 (withRegs [(1, 0x05#8)]) [1, 15] = some ([0x02, 1], 0x202) := by decide
theorem test_shift_sources :
    [ShiftSrc.vx, ShiftSrc.vy].map
        (fun q => (shiftSourceWith q 1 2 (withRegs [(1, 0x05#8), (2, 0x08#8)])).toNat) =
      [0x05, 0x08] := by decide
theorem test_shl_same_register :
    after 0x811E (withRegs [(1, 0x81#8)]) [1, 15] = some ([0x02, 1], 0x202) := by decide
theorem test_shl_flag_register :
    after 0x8FFE (withRegs [(15, 0x81#8)]) [15] = some ([1], 0x202) := by decide
/-- RND with a mask of 0 gives 0 whatever the draw, and the draw is counted. -/
theorem test_rnd_zero_mask : (run 0xC100 (withRegs [(1, 0x55#8)])).map (fun t => ((t.reg 1).toNat, t.draws)) =
    some (0, 1) := by
  have h : ∀ b : Byte, (b &&& 0x00#8) = 0x00#8 := by decide
  have e : step ((withRegs [(1, 0x55#8)]).withFetchWord 16 0xC100) =
      execRnd 1 0x00#8 ((withRegs [(1, 0x55#8)]).withFetchWord 16 0xC100) := by rfl
  rw [run, e, execRnd]
  simp only [h]
  decide
theorem test_ld_i :
    (run 0xAFFF State.reset).map (fun t => (t.i, t.pc)) = some (0xFFF#16, 0x202#16) := by decide
theorem test_add_i_overflow :
    (run 0xF11E ((withRegs [(1, 0x01#8), (15, 0x55#8)]).setI 0xFFF#16)).map (fun t => (t.i, t.reg 15)) =
      some (0x000#16, 1#8) := by decide
theorem test_add_i_flag_operand :
    (run 0xFF1E ((withRegs [(15, 0xFF#8)]).setI 0xFFF#16)).map (fun t => (t.i, t.reg 15)) =
      some (0x0FE#16, 1#8) := by decide
theorem test_ld_f_no_mask :
    (run 0xF129 (withRegs [(1, 0xFF#8)])).map (fun t => t.i) = some 0x4FB#16 := by decide
theorem test_ld_b :
    stored 0xF133 ((withRegs [(1, 249#8)]).setI 0xFFD#16) [0xFFD, 0xFFE, 0xFFF] =
      some ([2, 4, 9], 0x202, none) := by decide
theorem test_ld_b_partial :
    stored 0xF133 ((withRegs [(1, 249#8)]).setI 0xFFE#16) [0xFFE, 0xFFF] =
      some ([2, 4], 0x200, some (.addressError 0x1000)) := by decide
theorem test_ld_mem :
    stored 0xF255 ((withRegs [(0, 1#8), (1, 2#8), (2, 3#8)]).setI 0x300#16) [0x300, 0x301, 0x302] =
      some ([1, 2, 3], 0x202, none) := by decide
theorem test_ld_mem_partial :
    stored 0xF255 ((withRegs [(0, 1#8), (1, 2#8), (2, 3#8)]).setI 0xFFE#16) [0xFFE, 0xFFF] =
      some ([1, 2], 0x200, some (.addressError 0x1000)) := by decide
theorem test_ld_from_font :
    after 0xF265 ((withRegs [(3, 0x77#8)]).setI 0x000#16) [0, 1, 2, 3] =
      some ([0xF0, 0x90, 0x90, 0x77], 0x202) := by decide
theorem test_ld_partial :
    (run 0xF265 (withBytes 0xFFE 0xFFE [0xAA#8, 0xBB#8] (withRegs [(2, 0x33#8)]))).map
        (fun t => ([t.reg 0, t.reg 1, t.reg 2], t.faulted, t.pc)) =
      some ([0xAA#8, 0xBB#8, 0x33#8], some (.addressError 0x1000), 0x200#16) := by decide
theorem test_drw :
    (run 0xD011 (withBytes 0x300 0x300 [0x81#8] State.reset)).map
        (fun t => (at_points t.fb [(0, 0), (1, 0), (6, 0), (7, 0), (8, 0), (0, 1)], t.reg 15, t.pc)) =
      some ([true, false, false, true, false, false], 0#8, 0x202#16) := by decide
theorem test_drw_wraps :
    (run 0xD122 (withBytes 0x300 0x300 [0xFF#8, 0x3C#8] (withRegs [(1, 252#8), (2, 255#8)]))).map
        (fun t => (at_points t.fb [(59, 31), (60, 31), (63, 31), (0, 31), (3, 31), (4, 31), (61, 0), (62, 0), (1, 0), (2, 0)], t.reg 15)) =
      some ([false, true, true, true, true, false, false, true, true, false], 0#8) := by decide
theorem test_skp_no_mask :
    after 0xE19E ((withRegs [(1, 0x15#8)]).setPressed (some 5)) [] = some ([], 0x202) := by decide
theorem test_skp_keeps_key :
    (run 0xE19E ((withRegs [(1, 5#8)]).setPressed (some 5))).map (fun t => (t.pc, t.pressed)) =
      some (0x204#16, some 5) := by decide
theorem test_sknp_pressed :
    (run 0xE1A1 ((withRegs [(1, 5#8)]).setPressed (some 5))).map (fun t => (t.pc, t.pressed)) =
      some (0x202#16, some 5) := by decide
theorem test_sknp_none : after 0xE1A1 (withRegs [(1, 5#8)]) [] = some ([], 0x204) := by decide
theorem test_ld_vx_dt : after 0xFD07 (State.reset.setDt 0x3C#8) [13] = some ([0x3C], 0x202) := by decide
theorem test_ld_vx_k_pressed :
    (run 0xF30A (State.reset.setPressed (some 7))).map (fun t => (t.reg 3, t.pressed, t.waiting, t.pc)) =
      some (7#8, none, false, 0x202#16) := by decide
theorem test_ld_vx_k_waits :
    (run 0xF30A State.reset).map (fun t => (t.waiting, t.waitReg, t.pc)) =
      some (true, 3, 0x200#16) := by decide
theorem test_ld_dt_vx :
    (run 0xF215 (withRegs [(2, 60#8)])).map (fun t => (t.dt, t.st)) = some (60#8, 0#8) := by decide
theorem test_ld_st_vx :
    (run 0xF218 (withRegs [(2, 5#8)])).map (fun t => (t.dt, t.st, soundActive t)) =
      some (0#8, 5#8, true) := by decide

/-! ### Events (95_test_vectors.md sections 1.6 to 1.8, 2.7 and 2.8) -/

theorem test_tick :
    (let t := tickTimers ((State.reset.setDt 60#8).setSt 0#8); (t.dt, t.st)) = (59#8, 0#8) := by decide
theorem test_wait_ends :
    (let t := stepEvent (((State.reset.enterWait 3).setPressed (some 5))); (t.1.reg 3, t.1.pressed, t.1.waiting, t.1.pc, t.2)) =
      (5#8, none, false, 0x202#16, .ok) := by decide
theorem test_clear_other_key :
    (applyEvent (.clearKey 5) (State.reset.setPressed (some 9))).1.pressed = some 9 := by decide
theorem test_fault_is_reported_again :
    (stepEvent (takeFault .stackUnderflow State.reset)).2 = .fault .stackUnderflow := by decide
theorem test_load :
    ((applyEvent (.loadProgram [0x12#8, 0x34#8, 0x56#8]) State.reset).1.mem) =
      [(0x200, 0x12#8), (0x201, 0x34#8), (0x202, 0x56#8)] := by decide
theorem test_reset_restores_font :
    (resetEvent (State.reset.setMem [(0, 0x00#8), (0x200, 0x12#8)])).mem = [(0x200, 0x12#8)] := by decide

/-! ### Witnesses: for every obligation with hypotheses, data that meet them all -/

/-- The core about to run the word `w`. -/
abbrev at_ (w : Nat) : State := State.reset.withFetchWord 16 w

/-- The core waiting for a key at an LD V3, K. -/
def waitingState : State := (at_ 0xF30A).enterWait 3

theorem running_at_0x200 : Running (at_ 0x8124) := ⟨rfl, rfl⟩
theorem word_at_0x200 : memReadWord (at_ 0x8124).pc.toNat (at_ 0x8124) = .ok 0x8124#16 := by
  rw [Laws.memReadWord_of_lt (by decide)]; decide
theorem witness_DecodeOfEncode : (Instr.sys 0x0EF#12).wellFormed = true := by decide
theorem witness_EncodeOfDecode : decodeWord 0x8124#16 = .instr (.addReg 1 2) := by decide
theorem witness_IllegalWords_legal :
    Running (at_ 0x8124) ∧ memReadWord (at_ 0x8124).pc.toNat (at_ 0x8124) = .ok 0x8124#16 :=
  ⟨running_at_0x200, word_at_0x200⟩
theorem witness_IllegalWords_untagged :
    Running (at_ 0x8128) ∧ memReadWord (at_ 0x8128).pc.toNat (at_ 0x8128) = .ok 0x8128#16 ∧
    UntaggedWord 0x8128 := by
  refine ⟨⟨rfl, rfl⟩, ?_, .inr (.inl (by decide))⟩
  rw [Laws.memReadWord_of_lt (by decide)]; decide
theorem witness_IllegalWords_sys :
    Running (at_ 0x0FFF) ∧ memReadWord (at_ 0x0FFF).pc.toNat (at_ 0x0FFF) = .ok 0x0FFF#16 := by
  refine ⟨⟨rfl, rfl⟩, ?_⟩
  rw [Laws.memReadWord_of_lt (by decide)]; decide
theorem witness_StepRunsTheDecodedInstruction :
    Running (at_ 0x8124) ∧ memReadWord (at_ 0x8124).pc.toNat (at_ 0x8124) = .ok 0x8124#16 ∧
    decodeWord 0x8124#16 = .instr (.addReg 1 2) := ⟨running_at_0x200, word_at_0x200, by decide⟩
theorem witness_StepRunsTheDecodedInstruction_top_of_memory :
    ∃ w i, Running ((State.reset.setPc 0xFFE#16).withFetchWord 16 0x3100) ∧
      memReadWord ((State.reset.setPc 0xFFE#16).withFetchWord 16 0x3100).pc.toNat
        ((State.reset.setPc 0xFFE#16).withFetchWord 16 0x3100) = .ok w ∧ decodeWord w = .instr i := by
  refine ⟨0x3100#16, .seByte 1 0x00#8, ⟨rfl, rfl⟩, ?_, by decide⟩
  rw [Laws.memReadWord_of_lt (by decide)]; decide
theorem witness_FetchAtLastAddressFaults :
    Running (State.reset.setPc 0xFFF#16) ∧ (State.reset.setPc 0xFFF#16).pc.toNat = 0xFFF :=
  ⟨⟨rfl, rfl⟩, by decide⟩
theorem witness_StepWhileWaiting_no_key :
    waitingState.faulted = none ∧ waitingState.waiting = true ∧ waitingState.pressed = none := by decide
theorem witness_StepWhileWaiting_key :
    (waitingState.setPressed (some 5)).faulted = none ∧ (waitingState.setPressed (some 5)).waiting = true ∧
    (waitingState.setPressed (some 5)).pressed = some 5 := by decide
theorem witness_StepOutcomes_no_fault : State.reset.faulted = none := by decide
theorem witness_StepOutcomes_fault : (takeFault .stackOverflow State.reset).faulted = some .stackOverflow := by
  decide
theorem witness_StepOutcomes_event : Event.forceClearWait ≠ Event.reset ∧
    (takeFault .stackOverflow State.reset).faulted = some .stackOverflow := by decide
theorem witness_ResetLeaves_font_ends : 79 < 80 ∧ (Config.font[79]?).isSome = true ∧ (Config.font[80]?).isSome = false := by
  decide
theorem witness_LoadProgram_fits : (List.replicate 3584 (0x12#8 : Byte)).length ≤ 3584 := by
  rw [List.length_replicate]
theorem witness_LoadProgram_too_long : 3584 < (List.replicate 3585 (0x12#8 : Byte)).length := by
  rw [List.length_replicate]; decide
theorem witness_LoadProgram_event : State.reset.waiting = false := by decide
theorem witness_LoadProgram_event_wait_kept : waitingState.waiting = true ∧
    ∃ t, loadProgram [0xF3#8, 0x0A#8] waitingState = .ok t ∧
      memRead waitingState.pc.toNat t = memRead waitingState.pc.toNat waitingState ∧
      memRead (waitingState.pc.toNat + 1) t = memRead (waitingState.pc.toNat + 1) waitingState := by
  refine ⟨rfl, _, Laws.loadProgram_of_fits _ _ (by decide), ?_, ?_⟩ <;>
    exact Laws.memRead_congr (by decide)
theorem witness_LoadProgram_event_wait_rewritten : waitingState.waiting = true ∧
    ∃ t, loadProgram [0x12#8, 0x00#8] waitingState = .ok t ∧
      ¬ (memRead waitingState.pc.toNat t = memRead waitingState.pc.toNat waitingState ∧
        memRead (waitingState.pc.toNat + 1) t = memRead (waitingState.pc.toNat + 1) waitingState) := by
  refine ⟨rfl, _, Laws.loadProgram_of_fits _ _ (by decide), fun h => ?_⟩
  have h1 := h.1
  rw [Laws.memRead_of_lt (by decide), Laws.memRead_of_lt (by decide)] at h1
  injection h1 with h2
  revert h2
  decide
theorem witness_ResetAndLoadCommute : Memory.wf State.reset.mem = true ∧
    ∃ t, loadProgram [0x12#8, 0x34#8] State.reset = .ok t := ⟨by decide, _, rfl⟩
/-- A state with memory, a stack entry and an index at their limits. -/
def busyState : State :=
  ((((at_ 0x00E0).setI 0xFFF#16).setStack 16 (Vector.replicate 16 0xFFF#16)))
theorem busyState_Inv : Inv busyState :=
  ⟨by decide, by decide, by decide, by decide⟩
theorem witness_EveryStepKeepsInv : Inv busyState ∧ ∃ t, step busyState = .next t :=
  ⟨busyState_Inv, _, rfl⟩
theorem witness_EveryRunOfEventsKeepsInv : Inv busyState := busyState_Inv
theorem witness_EveryRunOfEventsKeepsWaitInv : waitingState.waiting = true ∧ WaitInv waitingState := by
  refine ⟨rfl, fun _ => ⟨rfl, ?_⟩⟩
  rw [Laws.memReadWord_of_lt (by decide)]; decide
theorem witness_ByteAccess : (4095 : Nat) < 4096 ∧ 4096 ≤ (4096 : Nat) := by decide
theorem witness_WordRead : (0xFFE : Nat) + 1 < 4096 ∧ 4096 ≤ (0xFFF : Nat) + 1 := by decide
theorem witness_SliceRead_beyond : (4096 : Nat) < 0xFFC + 5 := by decide
theorem witness_SliceRead_touching : (true = true ∧ 0 < 5 ∧ 0xFFB + 5 = 4096) ∧
    (0xFFB + 5 = 4096 ∧ (false = false ∨ 5 = 0)) := by decide
theorem witness_SliceRead_empty : (4096 : Nat) + 0 = 4096 ∧ (true = false ∨ (0 : Nat) = 0) := by decide
theorem witness_SysRaisesIllegalOpcode :
    (0x0E1#12 : Addr12).toNat ≠ 0x0E0 ∧ (0x0E1#12 : Addr12).toNat ≠ 0x0EE := by decide
theorem witness_CallPushesAndJumps : (State.reset.setStack 15 State.reset.stack).sp.val < 16 ∧
    (14 : Fin 16).val ≠ (State.reset.setStack 15 State.reset.stack).sp.val := by decide
theorem witness_RetPopsIntoPc_deepest :
    (State.reset.setStack 16 State.reset.stack).sp.val = (15 : Fin 16).val + 1 := by decide
theorem witness_RetPopsIntoPc_last :
    (State.reset.setStack 1 State.reset.stack).sp.val = (0 : Fin 16).val + 1 := by decide
theorem witness_StackFaults_overflow : (State.reset.setStack 16 State.reset.stack).sp.val = 16 := by decide
theorem witness_StackFaults_underflow : State.reset.sp.val = 0 := by decide
theorem witness_CallThenReturn : (State.reset.setStack 15 State.reset.stack).sp.val < 16 ∧
    (14 : Fin 16).val ≠ (State.reset.setStack 15 State.reset.stack).sp.val := by decide
theorem witness_FlagDestination : (14 : Nibble) ≠ 15 := by decide
theorem witness_LoadIndex_top : (0xFFF#12 : Addr12).toNat = 0xFFF := by decide
theorem witness_BcdStore_fits : (State.reset.setI 0xFFD#16).i.toNat + 2 ≤ 0xFFF := by decide
theorem witness_BcdStore_one_over : (State.reset.setI 0xFFE#16).i.toNat < 4096 ∧
    0xFFF < (State.reset.setI 0xFFE#16).i.toNat + 2 ∧ (State.reset.setI 0xFFE#16).i.toNat = 0xFFE := by decide
theorem witness_BcdStore_two_over : (State.reset.setI 0xFFF#16).i.toNat < 4096 ∧
    0xFFF < (State.reset.setI 0xFFF#16).i.toNat + 2 := by decide
theorem witness_RegisterTransfer_fits : (State.reset.setI 0xFF0#16).i.toNat + (15 : Nibble).val ≤ 0xFFF := by
  decide
theorem witness_RegisterTransfer_over : (State.reset.setI 0xFF1#16).i.toNat < 4096 ∧
    0xFFF < (State.reset.setI 0xFF1#16).i.toNat + (15 : Nibble).val ∧
    (State.reset.setI 0xFF1#16).i.toNat + (14 : Nibble).val ≤ 0xFFF := by decide
theorem witness_DrawSpriteFromMemory_touches : (State.reset.setI 0xFFB#16).i.toNat + (5 : Nibble).val ≤ 4096 := by
  decide
theorem witness_DrawSpriteFromMemory_over : 4096 < (State.reset.setI 0xFFC#16).i.toNat + (5 : Nibble).val := by
  decide
theorem witness_DrawSpriteXorsEachPixel : (List.replicate 32 (0x81#8 : Byte)).length ≤ 32 := by decide
theorem witness_TwoIdenticalDrawsCancel : ([0x81#8] : List Byte).length ≤ 32 ∧
    ∃ row ∈ ([0x81#8] : List Byte), row ≠ 0#8 := ⟨by decide, 0x81#8, by decide, by decide⟩
theorem witness_SetPixel_inside : (63 : Nat) < 64 ∧ (31 : Nat) < 32 := by decide
theorem witness_SetPixel_outside : (64 : Nat) ≤ 64 ∨ (32 : Nat) ≤ 0 := by decide
theorem witness_StandaloneHelpers : ((-1 : Int) < 0 ∨ 255 < (-1 : Int)) ∧ ((256 : Int) < 0 ∨ 255 < (256 : Int)) := by
  decide
theorem witness_SoundTimerIsWriteOnly : ∃ t, exec (.ldVxDt 3) State.reset = .next t := ⟨_, rfl⟩
theorem witness_KeySkips_pressed : ∃ k, ((withRegs [(1, 5#8)]).setPressed (some 5)).pressed = some k ∧
    k.val = (((withRegs [(1, 5#8)]).setPressed (some 5)).reg 1).toNat := ⟨5, by decide, by decide⟩
theorem witness_KeySkips_other : ∀ k, (State.reset.setPressed (some 5)).pressed = some k →
    k.val ≠ ((State.reset.setPressed (some 5)).reg 1).toNat := by decide
theorem witness_WaitForKey_pressed : (State.reset.setPressed (some 7)).pressed = some 7 := by decide
theorem witness_WaitForKey_none : State.reset.pressed = none := by decide
theorem witness_HostInputEvents_domain : (15 : Nat) < 16 ∧ 16 ≤ (16 : Nat) := by decide
theorem witness_HostInputEvents_recorded : (State.reset.setPressed (some 15)).pressed = some ⟨15, by decide⟩ ∧
    State.reset.pressed ≠ some ⟨15, by decide⟩ := by decide
theorem witness_InstructionsWriteOnlyWhatTheTablesSay :
    ∃ t, exec (.addReg 1 2) (withRegs [(1, 0x8C#8), (2, 0xF0#8)]) = .next t := ⟨_, rfl⟩
theorem witness_ProgramCounterPolicy_fault : State.reset.faulted = none ∧
    ∃ t, exec .ret State.reset = .next t ∧ t.faulted ≠ none := ⟨by decide, _, rfl, by decide⟩
theorem witness_ProgramCounterPolicy_setsPc : pcClass (.jp 0x234#12) = .setsPc ∧
    ∃ t, exec (.jp 0x234#12) State.reset = .next t ∧ t.faulted = none := ⟨by decide, _, rfl, by decide⟩
theorem witness_ProgramCounterPolicy_plain : pcClass .cls = .plain ∧
    ∃ t, exec .cls State.reset = .next t ∧ t.faulted = none := ⟨by decide, _, rfl, by decide⟩
theorem witness_ProgramCounterPolicy_skip : pcClass (.skp 1) = .skip ∧
    ∃ t, exec (.skp 1) State.reset = .next t ∧ t.faulted = none := ⟨by decide, _, rfl, by decide⟩
theorem witness_ProgramCounterPolicy_wait : pcClass (.ldVxK 1) = .wait ∧
    ∃ t, exec (.ldVxK 1) State.reset = .next t ∧ t.faulted = none := ⟨by decide, _, rfl, by decide⟩
theorem witness_FaultsArePrecise : State.reset.faulted = none ∧
    (∃ t, exec .ret State.reset = .next t ∧ t.faulted = some .stackUnderflow) ∧
    ∀ x, Instr.ret ≠ .ldB x ∧ Instr.ret ≠ .ldMemVx x ∧ Instr.ret ≠ .ldVxMem x :=
  ⟨by decide, ⟨_, rfl, by decide⟩, by decide⟩
theorem witness_FinishedProgramsStayFinished : Finished (at_ 0x1200) ∧
    ∀ e ∈ [Event.step, Event.tickTimers, Event.setKey 5],
      e ≠ Event.reset ∧ ∀ bytes, e ≠ Event.loadProgram bytes := by
  refine ⟨⟨rfl, rfl, ?_⟩, by simp⟩
  rw [Laws.memReadWord_of_lt (by decide)]; decide
theorem witness_WaitBlocksUntilAKeyComes :
    waitingState.faulted = none ∧ waitingState.waiting = true ∧ waitingState.pressed = none ∧
    ∀ e ∈ [Event.step, Event.tickTimers, Event.clearKey 5],
      e = Event.step ∨ e = Event.tickTimers ∨ ∃ code, e = Event.clearKey code := by
  refine ⟨by decide, by decide, by decide, by simp⟩

end Sys2Proof.Tests
end

section
/-! The display component's own operations (44_display.md rule R205). -/

namespace Sys2Proof.Proofs

open Sys2Proof.Machine Sys2Proof.Laws

/-- Inside the grid `setPixel` is `putPixel`. -/
theorem setPixel_of_lt (d : Display) {x y : Nat} (bit : Bool) (hx : x < 64) (hy : y < 32) :
    setPixel d x y bit = some (putPixel d ⟨x, hx⟩ ⟨y, hy⟩ bit) :=
  dif_pos ⟨hx, hy⟩

/-- Outside the grid `setPixel` is the coordinate error; it does not wrap. -/
theorem setPixel_eq_none (d : Display) {x y : Nat} (bit : Bool) (h : 64 ≤ x ∨ 32 ≤ y) :
    setPixel d x y bit = none :=
  dif_neg (by omega)

/-- A write inside the grid sets its own pixel and no other. -/
theorem setPixel_sets_only (d : Display) {x y : Nat} (bit : Bool) (hx : x < 64) (hy : y < 32) :
    ∃ d', setPixel d x y bit = some d' ∧
      ∀ px py, pixel d' px py = if px.val = x ∧ py.val = y then bit else pixel d px py :=
  ⟨_, setPixel_of_lt d bit hx hy, fun px py => by simp only [pixel_putPixel, Fin.ext_iff]⟩

/-- At coordinates wrapped as the sprite draw wraps them, `setPixel` succeeds. -/
theorem setPixel_wrapped (d : Display) (x y : Nat) (bit : Bool) :
    setPixel d (x % 64) (y % 32) bit = some (putPixel d (Fin.ofNat 64 x) (Fin.ofNat 32 y) bit) :=
  setPixel_of_lt d bit (Nat.mod_lt x (by decide)) (Nat.mod_lt y (by decide))

/-- Settles O46: `setPixel` splits on whether the coordinates are inside the grid, and a sprite pixel is
a `putPixel` at wrapped coordinates, which always are. -/
theorem setPixelIsBounded : Obligations.SetPixelIsBounded := by
  refine ⟨fun d x y bit => ⟨?inside, setPixel_eq_none d bit⟩, ?view, pixel_clearDisplay, ?sprite⟩
  case inside =>
    rintro ⟨hx, hy⟩
    exact setPixel_sets_only d bit hx hy
  case view =>
    intro s px py
    exact ⟨rfl, rfl⟩
  case sprite =>
    intro d x y bit collided
    exact setPixel_wrapped d x y _

end Sys2Proof.Proofs
end

section
/-! The faults of the call stack (60_exceptions.md rules R246, R247). -/

namespace Sys2Proof.Proofs

open Sys2Proof.Machine Sys2Proof.Laws Sys2Proof.Safety

/-- Latching a fault keeps every piece of state but the latch (R241). -/
theorem takeFault_keepsAllBut (f : Fault) (s : State) : KeepsAllBut [.fault] s (takeFault f s) := by
  intro p hp
  cases p with
  | fault => exact absurd (List.mem_singleton_self _) hp
  | memory => exact fun _ => rfl
  | callStack => exact ⟨takeFault_sp s f, takeFault_stack s f⟩
  | index | delay | sound | display | pressed | waiting | waitReg | draws => rfl

/-- Latching a fault does nothing else: `PC`, the registers and all other state stay (R241, R251). -/
theorem onlyFaulted_takeFault (f : Fault) (s : State) : OnlyFaulted f s (takeFault f s) :=
  ⟨takeFault_faulted s f, takeFault_pc s f, fun r _ => reg_takeFault s f r, takeFault_keepsAllBut f s⟩

theorem exec_call (nnn : Addr12) (s : State) : exec (.call nnn) s = execCall nnn s := rfl

theorem exec_ret (s : State) : exec .ret s = execRet s := rfl

/-- CALL with no room takes StackOverflow in the state it found (R143, R246). -/
theorem exec_call_of_full (nnn : Addr12) {s : State} (h : s.sp.val = 16) :
    exec (.call nnn) s = .next (takeFault .stackOverflow s) := by
  simp only [exec_call, execCall, pushStack_of_full _ s h, raise]

/-- RET with no entry takes StackUnderflow in the state it found (R141, R247). -/
theorem exec_ret_of_empty {s : State} (h : s.sp.val = 0) :
    exec .ret s = .next (takeFault .stackUnderflow s) := by
  simp only [exec_ret, execRet, popStack_of_empty s h, raise]

/-- Settles O25: both instructions take their fault in the state they found, and taking a fault only
sets the latch. -/
theorem stackFaultsChangeNothing : Obligations.StackFaultsChangeNothing :=
  ⟨fun nnn s full => ⟨_, exec_call_of_full nnn full, onlyFaulted_takeFault .stackOverflow s⟩,
    fun s empty => ⟨_, exec_ret_of_empty empty, onlyFaulted_takeFault .stackUnderflow s⟩⟩

end Sys2Proof.Proofs
end

section
/-! The decoder and the encoder are inverse to each other, and the words without a tag are those of the
table (30_encoding.md rules R93 to R95). -/

namespace Sys2Proof.Proofs

open Sys2Proof.Laws Sys2Proof.Safety

/-! ### SYS (41_control_flow.md rule R140) -/

theorem encode_sys_toNat (nnn : Addr12) : (encode (.sys nnn)).toNat = nnn.toNat := by
  have := nnn.isLt
  simp only [encode, packA, BitVec.toNat_ofNat]; omega

theorem wellFormed_sys_iff (nnn : Addr12) :
    (Instr.sys nnn).wellFormed = true ↔ nnn.toNat ≠ 0x0E0 ∧ nnn.toNat ≠ 0x0EE := by
  simp [Instr.wellFormed, sysOperandOk, ← BitVec.toNat_inj]

/-- A word of family 0 other than the words of CLS and RET is SYS. -/
theorem decodeFamily0_of_ne {w : Word} (notCls : w.toNat ≠ 0x00E0) (notRet : w.toNat ≠ 0x00EE) :
    decodeFamily0 w = .instr (.sys (fieldNnn w)) := by
  rw [decodeFamily0, if_neg fun h => notCls (congrArg BitVec.toNat h),
    if_neg fun h => notRet (congrArg BitVec.toNat h)]

/-! ### Decoding an encoded instruction -/

/-- Settles O2: the encoder packs the operands into the fields the decoder reads, under the top nibble
(and the low bits) that select the instruction. -/
theorem decodeOfEncode : Obligations.DecodeOfEncode := by
  intro i ok
  cases i with
  | sys nnn =>
    rw [wellFormed_sys_iff, ← encode_sys_toNat] at ok
    have ho : fieldOp (encode (.sys nnn)) = 0 := Encoding.sys nnn
    simp only [decodeWord, ho, decodeFamily0_of_ne ok.1 ok.2]
    rw [encode, fieldNnn_packA]
  | cls | ret => rfl
  | jp | call | ldI | jpV0 => simp [encode, decodeWord, fieldOp_packA, fieldNnn_packA]
  | seByte | sneByte | ldByte | addByte | rnd =>
    simp [encode, decodeWord, fieldOp_packXK, fieldX_packXK, fieldKk_packXK]
  | seReg | sneReg | drw =>
    simp [encode, decodeWord, fieldOp_packXYN, fieldX_packXYN, fieldY_packXYN, fieldN_packXYN]
  | ldReg | orReg | andReg | xorReg | addReg | subReg | shr | subn | shl =>
    simp [encode, decodeWord, decodeFamily8, fieldOp_packXYN, fieldX_packXYN, fieldY_packXYN,
      fieldN_packXYN]
  | skp | sknp =>
    simp [encode, decodeWord, decodeFamilyE, fieldOp_packXK, fieldX_packXK, fieldKk_packXK]
  | ldVxDt | ldVxK | ldDtVx | ldStVx | addI | ldF | ldB | ldMemVx | ldVxMem =>
    simp [encode, decodeWord, decodeFamilyF, fieldOp_packXK, fieldX_packXK, fieldKk_packXK]

/-- The number of a word reads as the instruction whose word it is. -/
theorem readsAs_of_encode {n : Nat} {i : Instr} (ok : i.wellFormed = true)
    (word : BitVec.ofNat 16 n = encode i) : ReadsAs n i := by
  rw [ReadsAs, word]; exact decodeOfEncode i ok

section
variable {n : Nat} {i : Instr} (op : Nat) (nnn : Addr12) (x y m : Nibble) (kk : Byte)

theorem readsAs_packA (word : encode i = packA op nnn) (ok : i.wellFormed = true)
    (value : n = op * 4096 + nnn.toNat) : ReadsAs n i :=
  readsAs_of_encode ok ((ofNat_eq_packA op n nnn value).trans word.symm)

theorem readsAs_packXK (word : encode i = packXK op x kk) (ok : i.wellFormed = true)
    (value : n = op * 4096 + x.val * 256 + kk.toNat) : ReadsAs n i :=
  readsAs_of_encode ok ((ofNat_eq_packXK op n x kk value).trans word.symm)

/-- Format X: the low byte is fixed, and the number of the word is the instruction's plus `0x100 * x`. -/
theorem readsAs_packX (word : encode i = packXK op x kk) (ok : i.wellFormed = true) :
    ReadsAs (op * 4096 + kk.toNat + 256 * x.val) i :=
  readsAs_packXK op x kk word ok (by omega)

theorem readsAs_packXYN (word : encode i = packXYN op x y m) (ok : i.wellFormed = true)
    (value : n = op * 4096 + x.val * 256 + y.val * 16 + m.val) : ReadsAs n i :=
  readsAs_of_encode ok ((ofNat_eq_packXYN op n x y m value).trans word.symm)

end

/-- Settles O1: each of the twelve numbers is the word of its instruction. -/
theorem sampleWordsDecode : Obligations.SampleWordsDecode := by
  refine ⟨?_, ?_, ?_, ?_, ?_, ?_, ?_, ?_, ?_, ?_, ?_, ?_⟩
  all_goals exact readsAs_of_encode (by decide) (by decide)

/-! ### Encoding a decoded word -/

theorem packA_of_fieldOp {w : Word} {op : Nat} (ho : fieldOp w = op) : packA op (fieldNnn w) = w := by
  rw [← ho, packA_fields]

theorem packXK_of_fieldOp {w : Word} {op : Nat} (ho : fieldOp w = op) :
    packXK op (fieldX w) (fieldKk w) = w := by
  rw [← ho, packXK_fields]

theorem packXK_of_fieldKk {w : Word} {op : Nat} {kk : Byte} (ho : fieldOp w = op)
    (hk : (fieldKk w).toNat = kk.toNat) : packXK op (fieldX w) kk = w := by
  rw [← BitVec.eq_of_toNat_eq hk, packXK_of_fieldOp ho]

theorem packXYN_of_fieldN {w : Word} {op : Nat} {n : Nibble} (ho : fieldOp w = op)
    (hn : (fieldN w).val = n.val) : packXYN op (fieldX w) (fieldY w) n = w := by
  rw [← Fin.ext hn, ← ho, packXYN_fields]

theorem encode_of_decodeFamily0 {w : Word} {i : Instr} (ho : fieldOp w = 0)
    (h : decodeFamily0 w = .instr i) : encode i = w ∧ i.wellFormed = true := by
  unfold decodeFamily0 at h
  split at h
  · next cls => cases h; exact ⟨cls.symm, rfl⟩
  · next notCls =>
    split at h
    · next ret => cases h; exact ⟨ret.symm, rfl⟩
    · next notRet =>
      cases h
      have word : encode (.sys (fieldNnn w)) = w := packA_of_fieldOp ho
      refine ⟨word, ?_⟩
      rw [wellFormed_sys_iff, ← encode_sys_toNat, word]
      exact ⟨fun e => notCls (BitVec.eq_of_toNat_eq e), fun e => notRet (BitVec.eq_of_toNat_eq e)⟩

theorem encode_of_decodeFamily8 {w : Word} {i : Instr} (ho : fieldOp w = 0x8)
    (h : decodeFamily8 w = .instr i) : encode i = w ∧ i.wellFormed = true := by
  unfold decodeFamily8 at h
  split at h <;> cases h <;> next hn => exact ⟨packXYN_of_fieldN ho hn, rfl⟩

theorem encode_of_decodeFamilyE {w : Word} {i : Instr} (ho : fieldOp w = 0xE)
    (h : decodeFamilyE w = .instr i) : encode i = w ∧ i.wellFormed = true := by
  unfold decodeFamilyE at h
  split at h <;> cases h <;> next hk => exact ⟨packXK_of_fieldKk ho hk, rfl⟩

theorem encode_of_decodeFamilyF {w : Word} {i : Instr} (ho : fieldOp w = 0xF)
    (h : decodeFamilyF w = .instr i) : encode i = w ∧ i.wellFormed = true := by
  unfold decodeFamilyF at h
  split at h <;> cases h <;> next hk => exact ⟨packXK_of_fieldKk ho hk, rfl⟩

/-- Settles O3: along the families of the decoder, the fields of the word are all of its bits. -/
theorem encodeOfDecode : Obligations.EncodeOfDecode := by
  intro w i h
  unfold decodeWord at h
  split at h
  case h_1 ho => exact encode_of_decodeFamily0 ho h
  case h_2 ho | h_3 ho | h_11 ho | h_12 ho => cases h; exact ⟨packA_of_fieldOp ho, rfl⟩
  case h_4 ho | h_5 ho | h_7 ho | h_8 ho | h_13 ho => cases h; exact ⟨packXK_of_fieldOp ho, rfl⟩
  case h_6 ho | h_10 ho =>
    split at h <;> cases h
    next hn => exact ⟨packXYN_of_fieldN ho (congrArg Fin.val hn), rfl⟩
  case h_9 ho => exact encode_of_decodeFamily8 ho h
  case h_14 ho => cases h; exact ⟨packXYN_of_fieldN ho rfl, rfl⟩
  case h_15 ho => exact encode_of_decodeFamilyE ho h
  case h_16 ho => exact encode_of_decodeFamilyF ho h
  case h_17 => cases h

/-! ### The words without a tag (R95) -/

theorem fieldN_val (w : Word) : (fieldN w).val = w.toNat % 0x10 := rfl

theorem fieldKk_toNat (w : Word) : (fieldKk w).toNat = w.toNat % 0x100 := BitVec.toNat_ofNat ..

theorem decodeFamily8_eq_unrecognized {w u : Word} : decodeFamily8 w = .unrecognized u ↔
    w = u ∧ w.toNat % 0x10 ∈ [0x8, 0x9, 0xA, 0xB, 0xC, 0xD, 0xF] := by
  unfold decodeFamily8
  rw [fieldN_val]
  split
  case h_10 =>
    have listed : w.toNat % 0x10 ∈ [0x8, 0x9, 0xA, 0xB, 0xC, 0xD, 0xF] := by
      simp only [imp_false] at *
      simp only [List.mem_cons, List.not_mem_nil]
      omega
    simp only [listed, and_true, Decoded.unrecognized.injEq]
  all_goals next hn => simp [hn]

theorem decodeFamilyE_eq_unrecognized {w u : Word} : decodeFamilyE w = .unrecognized u ↔
    w = u ∧ w.toNat % 0x100 ∉ [0x9E, 0xA1] := by
  unfold decodeFamilyE
  rw [fieldKk_toNat]
  split
  case h_3 => simp_all
  all_goals next hk => simp [hk]

theorem decodeFamilyF_eq_unrecognized {w u : Word} : decodeFamilyF w = .unrecognized u ↔
    w = u ∧ w.toNat % 0x100 ∉ [0x07, 0x0A, 0x15, 0x18, 0x1E, 0x29, 0x33, 0x55, 0x65] := by
  unfold decodeFamilyF
  rw [fieldKk_toNat]
  split
  case h_10 => simp_all
  all_goals next hk => simp [hk]

theorem decodeFamily0_ne_unrecognized (w u : Word) : decodeFamily0 w ≠ .unrecognized u := by
  unfold decodeFamily0
  split
  · simp
  · split <;> simp

theorem fieldN_eq_zero (w : Word) : fieldN w = 0 ↔ w.toNat % 0x10 = 0 := Fin.ext_iff

/-- The decoder has no tag for a word exactly when the table lists it, and answers that word (R95). -/
theorem decodeWord_eq_unrecognized {w u : Word} :
    decodeWord w = .unrecognized u ↔ w = u ∧ UntaggedWord w.toNat := by
  unfold decodeWord
  rw [show fieldOp w = w.toNat / 0x1000 from rfl]
  split
  case h_1 ho => simp [UntaggedWord, ho, decodeFamily0_ne_unrecognized]
  case h_6 ho | h_10 ho => split <;> simp_all [UntaggedWord, fieldN_eq_zero]
  case h_9 ho => rw [decodeFamily8_eq_unrecognized, UntaggedWord]; simp [ho]
  case h_15 ho => rw [decodeFamilyE_eq_unrecognized, UntaggedWord]; simp [ho]
  case h_16 ho => rw [decodeFamilyF_eq_unrecognized, UntaggedWord]; simp [ho]
  case h_17 =>
    have := w.isLt
    simp only [imp_false] at *
    omega
  all_goals next ho => simp [UntaggedWord, ho]

/-- The decoder answers SYS exactly below 0x1000, the words of CLS and RET apart (R140). -/
theorem decodeWord_eq_sys {w : Word} : (∃ nnn, decodeWord w = .instr (.sys nnn)) ↔
    w.toNat < 0x1000 ∧ w.toNat ≠ 0x00E0 ∧ w.toNat ≠ 0x00EE := by
  constructor
  · rintro ⟨nnn, h⟩
    obtain ⟨word, ok⟩ := encodeOfDecode w _ h
    rw [wellFormed_sys_iff] at ok
    rw [← word, encode_sys_toNat]
    exact ⟨nnn.isLt, ok⟩
  · rintro ⟨family0, notCls, notRet⟩
    have ho : fieldOp w = 0 := Nat.div_eq_of_lt family0
    exact ⟨fieldNnn w, by simp only [decodeWord, ho, decodeFamily0_of_ne notCls notRet]⟩

end Sys2Proof.Proofs
end

section
/-! What each instruction answers: one equation per instruction, or one per case of it, in the updates of
one piece of state (sections 2 of 41_control_flow.md to 45_timers_keys.md). -/

namespace Sys2Proof.Proofs

open Sys2Proof.Machine Sys2Proof.Laws Sys2Proof.Safety

variable (x y n : Nibble) (kk : Byte) (nnn : Addr12) (s : State)

/-! ### Control transfer and skips -/

theorem exec_sys :
    exec (.sys nnn) s = .next (takeFault (.illegalOpcode (encode (.sys nnn))) s) := rfl

theorem exec_ret_of_pos {s : State} (h : 0 < s.sp.val) :
    exec .ret s = .next ((s.setStack ⟨s.sp.val - 1, by omega⟩ s.stack).setPc s.stack[s.sp.val - 1]) := by
  simp only [exec_ret, execRet, popStack_of_pos s h]

theorem exec_jp : exec (.jp nnn) s = .next (s.setPc (absoluteAddr nnn)) := rfl

theorem exec_call_of_lt {s : State} (h : s.sp.val < 16) :
    exec (.call nnn) s = .next ((s.setStack ⟨s.sp.val + 1, by omega⟩
      (s.stack.set s.sp.val (s.pcPlus 2) h)).setPc (absoluteAddr nnn)) := by
  simp only [exec_call, execCall, pushStack_of_lt _ s h]

theorem exec_jpV0 : exec (.jpV0 nnn) s = .next (s.setPc (offsetAddr nnn s)) := rfl

theorem exec_seByte : exec (.seByte x kk) s = .next (s.advance (if s.reg x = kk then 4 else 2)) := by
  simp [exec, execSeByte, skipIf]

theorem exec_sneByte : exec (.sneByte x kk) s = .next (s.advance (if s.reg x = kk then 2 else 4)) := by
  simp [exec, execSneByte, skipIf]

theorem exec_seReg :
    exec (.seReg x y) s = .next (s.advance (if s.reg x = s.reg y then 4 else 2)) := by
  simp [exec, execSeReg, skipIf]

theorem exec_sneReg :
    exec (.sneReg x y) s = .next (s.advance (if s.reg x = s.reg y then 2 else 4)) := by
  simp [exec, execSneReg, skipIf]

theorem exec_skp : exec (.skp x) s = .next (s.advance (if keyIs (s.reg x) s then 4 else 2)) := rfl

theorem exec_sknp : exec (.sknp x) s = .next (s.advance (if keyIs (s.reg x) s then 2 else 4)) := by
  simp only [exec, execSknp, skipIf]
  cases keyIs (s.reg x) s <;> rfl

/-! ### Registers and arithmetic -/

theorem exec_ldByte : exec (.ldByte x kk) s = .next ((s.setReg x kk).advance 2) := rfl

theorem exec_addByte : exec (.addByte x kk) s = .next ((s.setReg x (s.reg x + kk)).advance 2) := rfl

theorem exec_ldReg : exec (.ldReg x y) s = .next ((s.setReg x (s.reg y)).advance 2) := rfl

theorem exec_orReg :
    exec (.orReg x y) s = .next ((s.setReg x (s.reg x ||| s.reg y)).advance 2) := rfl

theorem exec_andReg :
    exec (.andReg x y) s = .next ((s.setReg x (s.reg x &&& s.reg y)).advance 2) := rfl

theorem exec_xorReg :
    exec (.xorReg x y) s = .next ((s.setReg x (s.reg x ^^^ s.reg y)).advance 2) := rfl

theorem exec_addReg : exec (.addReg x y) s =
    .next (((s.setReg x (s.reg x + s.reg y)).setFlag (carryOut (s.reg x) (s.reg y))).advance 2) := rfl

theorem exec_subReg : exec (.subReg x y) s =
    .next (((s.setReg x (s.reg x - s.reg y)).setFlag (noBorrow (s.reg x) (s.reg y))).advance 2) := rfl

theorem exec_subn : exec (.subn x y) s =
    .next (((s.setReg x (s.reg y - s.reg x)).setFlag (noBorrow (s.reg y) (s.reg x))).advance 2) := rfl

theorem exec_shr : exec (.shr x y) s = .next (((s.setReg x (shiftSource x y s >>> 1)).setFlag
    (lowBit (shiftSource x y s))).advance 2) := rfl

theorem exec_shl : exec (.shl x y) s = .next (((s.setReg x (shiftSource x y s <<< 1)).setFlag
    (highBit (shiftSource x y s))).advance 2) := rfl

theorem exec_rnd : exec (.rnd x kk) s =
    .next (((s.setReg x (Config.rnd s.draws &&& kk)).setDraws (s.draws + 1)).advance 2) := rfl

/-! ### Index register and display -/

theorem exec_ldI : exec (.ldI nnn) s = .next ((s.setI (absoluteAddr nnn)).advance 2) := rfl

theorem exec_addI : exec (.addI x) s = .next (((s.setI (wrapAddr (indexSum x s))).setFlag
    (indexOverflow (indexSum x s))).advance 2) := rfl

theorem exec_ldF : exec (.ldF x) s = .next ((s.setI (glyphAddr x s)).advance 2) := rfl

theorem exec_cls : exec .cls s = .next ((s.setFb clearDisplay).advance 2) := rfl

/-- The sprite rows DRW fetches: the `n` bytes from `I` on (44_display.md rule R204). -/
def spriteRows (n : Nibble) (s : State) : List Byte :=
  (List.range n.val).map fun k => Memory.byte s.mem (s.i.toNat + k)

/-- The display DRW leaves, and its collision flag. -/
def drawn (x y n : Nibble) (s : State) : Display × Bool :=
  drawSprite s.fb (s.reg x).toNat (s.reg y).toNat (spriteRows n s)

theorem exec_drw_of_le {s : State} (h : s.i.toNat + n.val ≤ 4096) : exec (.drw x y n) s =
    .next (((s.setFb (drawn x y n s).1).setFlag (drawn x y n s).2).advance 2) := by
  simp only [exec, execDrw, memReadSlice_eq, if_neg (Nat.not_lt.2 h)]
  rfl

theorem exec_drw_of_gt {s : State} (h : 4096 < s.i.toNat + n.val) :
    exec (.drw x y n) s = .next (takeFault (.addressError s.i.toNat) s) := by
  simp only [exec, execDrw, memReadSlice_eq, if_pos h, raise]

/-! ### Multi-byte transfers -/

theorem exec_ldB : exec (.ldB x) s =
    finishTransfer (writeBytes s.i.toNat (bcdDigits (s.reg x)) s) := rfl

theorem exec_ldMemVx : exec (.ldMemVx x) s =
    finishTransfer (writeBytes s.i.toNat (dumpBytes x s) s) := rfl

theorem exec_ldVxMem : exec (.ldVxMem x) s =
    finishTransfer (readRegs s.i.toNat (regsUpTo x) s) := rfl

/-! ### Timers and keys -/

theorem exec_ldVxDt : exec (.ldVxDt x) s = .next ((s.setReg x s.dt).advance 2) := rfl

theorem exec_ldDtVx : exec (.ldDtVx x) s = .next ((s.setDt (s.reg x)).advance 2) := rfl

theorem exec_ldStVx : exec (.ldStVx x) s = .next ((s.setSt (s.reg x)).advance 2) := rfl

theorem exec_ldVxK_of_some {s : State} {k : Nibble} (h : s.pressed = some k) :
    exec (.ldVxK x) s = .next ((s.takeKey x k).advance 2) := by
  simp only [exec, execLdVxK, h, completed]

theorem exec_ldVxK_of_none {s : State} (h : s.pressed = none) :
    exec (.ldVxK x) s = .next (s.enterWait x) := by
  simp only [exec, execLdVxK, h]

end Sys2Proof.Proofs
end

section
/-! Every instruction is a chain of updates of the registers and pieces of state its tables list. Frames
and invariants follow by induction on the chain (10_state.md rules R20, R23). -/

namespace Sys2Proof.Proofs

open Sys2Proof.Machine Sys2Proof.Laws Sys2Proof.Safety

/-! ### Chains of updates -/

/-- `t` comes from `s` by updates of `PC`, of registers in `regs` and of pieces of state in `parts`. An
address that is written lies in 0 to 0xFFF; one that goes to `PC` may also come off the stack. -/
inductive WritesOnly (regs : List Nibble) (parts : List Part) (s : State) : State → Prop where
  | refl : WritesOnly regs parts s s
  | setReg {t r} (h : WritesOnly regs parts s t) (b : Byte)
      (hr : r ∈ regs := by simp [writtenRegs]) : WritesOnly regs parts s (t.setReg r b)
  | setPc {t w} (h : WritesOnly regs parts s t) (hw : w.toNat < 4096 ∨ ∃ k : Fin 16, w = t.stack[k]) :
      WritesOnly regs parts s (t.setPc w)
  | setI {t w} (h : WritesOnly regs parts s t) (hw : w.toNat < 4096)
      (hp : .index ∈ parts := by simp [writtenParts]) : WritesOnly regs parts s (t.setI w)
  | setDt {t} (h : WritesOnly regs parts s t) (b : Byte)
      (hp : .delay ∈ parts := by simp [writtenParts]) : WritesOnly regs parts s (t.setDt b)
  | setSt {t} (h : WritesOnly regs parts s t) (b : Byte)
      (hp : .sound ∈ parts := by simp [writtenParts]) : WritesOnly regs parts s (t.setSt b)
  | store {t a} (h : WritesOnly regs parts s t) (b : Byte) (ha : a < 4096)
      (hp : .memory ∈ parts := by simp [writtenParts]) :
      WritesOnly regs parts s (t.setMem (Memory.put t.mem a b))
  | setFb {t} (h : WritesOnly regs parts s t) (d : Display)
      (hp : .display ∈ parts := by simp [writtenParts]) : WritesOnly regs parts s (t.setFb d)
  | setPressed {t} (h : WritesOnly regs parts s t) (k : Option Nibble)
      (hp : .pressed ∈ parts := by simp [writtenParts]) : WritesOnly regs parts s (t.setPressed k)
  | setWaiting {t} (h : WritesOnly regs parts s t) (b : Bool)
      (hp : .waiting ∈ parts := by simp [writtenParts]) : WritesOnly regs parts s (t.setWaiting b)
  | setWaitReg {t} (h : WritesOnly regs parts s t) (r : Nibble)
      (hp : .waitReg ∈ parts := by simp [writtenParts]) : WritesOnly regs parts s (t.setWaitReg r)
  | setDraws {t} (h : WritesOnly regs parts s t) (k : Nat)
      (hp : .draws ∈ parts := by simp [writtenParts]) : WritesOnly regs parts s (t.setDraws k)
  | pop {t} (h : WritesOnly regs parts s t) (sp : Fin 17)
      (hp : .callStack ∈ parts := by simp [writtenParts]) :
      WritesOnly regs parts s (t.setStack sp t.stack)
  | push {t k w} (h : WritesOnly regs parts s t) (sp : Fin 17) (hk : k < 16) (hw : w.toNat < 4096)
      (hp : .callStack ∈ parts := by simp [writtenParts]) :
      WritesOnly regs parts s (t.setStack sp (t.stack.set k w hk))
  | takeFault {t} (h : WritesOnly regs parts s t) (f : Fault)
      (hp : .fault ∈ parts := by simp [writtenParts]) : WritesOnly regs parts s (takeFault f t)

section
variable {regs : List Nibble} {parts : List Part} {s t : State}

theorem WritesOnly.advance (h : WritesOnly regs parts s t) (k : Nat) :
    WritesOnly regs parts s (t.advance k) :=
  h.setPc (.inl (by rw [pcPlus_toNat]; omega))

theorem WritesOnly.setFlag (h : WritesOnly regs parts s t) (b : Bool)
    (hr : 15 ∈ regs := by simp [writtenRegs]) : WritesOnly regs parts s (t.setFlag b) :=
  h.setReg _ hr

theorem WritesOnly.writeBytes (hp : .memory ∈ parts) (bytes : List Byte) (a : Nat)
    (h : WritesOnly regs parts s t) : WritesOnly regs parts s (writeBytes a bytes t).1 := by
  induction bytes generalizing a t with
  | nil => exact h
  | cons b bytes ih =>
    rw [Machine.writeBytes]
    by_cases ha : a < 4096
    · rw [memWrite_of_lt ha]
      exact ih (a + 1) (h.store b ha hp)
    · rw [memWrite_of_ge (Nat.le_of_not_lt ha)]
      exact h

theorem WritesOnly.readRegs (rs : List Nibble) (hr : ∀ r ∈ rs, r ∈ regs) (a : Nat)
    (h : WritesOnly regs parts s t) : WritesOnly regs parts s (readRegs a rs t).1 := by
  induction rs generalizing a t with
  | nil => exact h
  | cons r rs ih =>
    obtain ⟨hr, hrs⟩ := List.forall_mem_cons.1 hr
    rw [Machine.readRegs]
    by_cases ha : a < 4096
    · rw [memRead_of_lt ha]
      exact ih hrs (a + 1) (h.setReg _ hr)
    · rw [memRead_of_ge (Nat.le_of_not_lt ha)]
      exact h

theorem WritesOnly.finishTransfer {r : State × Option Fault} (h : WritesOnly regs parts s r.1)
    (hp : .fault ∈ parts := by simp [writtenParts]) :
    ∃ t, finishTransfer r = .next t ∧ WritesOnly regs parts s t := by
  rw [finishTransfer_eq]
  refine ⟨_, rfl, ?_⟩
  cases r.2 with
  | none => exact h.advance 2
  | some f => exact h.takeFault f hp

end

theorem absoluteAddr_lt (nnn : Addr12) : (absoluteAddr nnn).toNat < 4096 := by
  rw [absoluteAddr_toNat]; exact nnn.isLt

theorem wrapAddr_lt (n : Nat) : (wrapAddr n).toNat < 4096 := by
  rw [wrapAddr_toNat]; omega

theorem glyphAddr_lt (x : Nibble) (s : State) : (glyphAddr x s).toNat < 4096 := by
  have := (s.reg x).isLt
  rw [glyphAddr_toNat]; omega

theorem mem_regsUpTo {x r : Nibble} : r ∈ regsUpTo x → r ≤ x := by
  simp only [regsUpTo, List.mem_map, List.mem_range]
  rintro ⟨k, hk, rfl⟩
  have := Nat.mod_le k 16
  exact Fin.le_def.2 (by simp only [Fin.ofNat]; omega)

open WritesOnly in
/-- Every instruction answers a next state, by a chain of the updates its tables list. -/
theorem exec_eq_next (i : Instr) (s : State) :
    ∃ t, exec i s = .next t ∧ WritesOnly (writtenRegs i) (writtenParts i) s t := by
  cases i with
  | sys nnn => exact ⟨_, exec_sys nnn s, refl.takeFault _⟩
  | cls => exact ⟨_, exec_cls s, (refl.setFb _).advance 2⟩
  | ret =>
    rcases Nat.eq_zero_or_pos s.sp.val with empty | pos
    · exact ⟨_, exec_ret_of_empty empty, refl.takeFault _⟩
    · exact ⟨_, exec_ret_of_pos pos, (refl.pop _).setPc (.inr ⟨⟨s.sp.val - 1, by omega⟩, rfl⟩)⟩
  | jp nnn => exact ⟨_, exec_jp nnn s, refl.setPc (.inl (absoluteAddr_lt nnn))⟩
  | call nnn =>
    rcases Nat.lt_or_ge s.sp.val 16 with room | full
    · exact ⟨_, exec_call_of_lt nnn room,
        (refl.push _ room (wrapAddr_lt _)).setPc (.inl (absoluteAddr_lt nnn))⟩
    · exact ⟨_, exec_call_of_full nnn (by omega), refl.takeFault _⟩
  | seByte x kk => exact ⟨_, exec_seByte x kk s, refl.advance _⟩
  | sneByte x kk => exact ⟨_, exec_sneByte x kk s, refl.advance _⟩
  | seReg x y => exact ⟨_, exec_seReg x y s, refl.advance _⟩
  | ldByte x kk => exact ⟨_, exec_ldByte x kk s, (refl.setReg _).advance 2⟩
  | addByte x kk => exact ⟨_, exec_addByte x kk s, (refl.setReg _).advance 2⟩
  | ldReg x y => exact ⟨_, exec_ldReg x y s, (refl.setReg _).advance 2⟩
  | orReg x y => exact ⟨_, exec_orReg x y s, (refl.setReg _).advance 2⟩
  | andReg x y => exact ⟨_, exec_andReg x y s, (refl.setReg _).advance 2⟩
  | xorReg x y => exact ⟨_, exec_xorReg x y s, (refl.setReg _).advance 2⟩
  | addReg x y => exact ⟨_, exec_addReg x y s, ((refl.setReg _).setFlag _).advance 2⟩
  | subReg x y => exact ⟨_, exec_subReg x y s, ((refl.setReg _).setFlag _).advance 2⟩
  | shr x y => exact ⟨_, exec_shr x y s, ((refl.setReg _).setFlag _).advance 2⟩
  | subn x y => exact ⟨_, exec_subn x y s, ((refl.setReg _).setFlag _).advance 2⟩
  | shl x y => exact ⟨_, exec_shl x y s, ((refl.setReg _).setFlag _).advance 2⟩
  | sneReg x y => exact ⟨_, exec_sneReg x y s, refl.advance _⟩
  | ldI nnn => exact ⟨_, exec_ldI nnn s, (refl.setI (absoluteAddr_lt nnn)).advance 2⟩
  | jpV0 nnn => exact ⟨_, exec_jpV0 nnn s, refl.setPc (.inl (wrapAddr_lt _))⟩
  | rnd x kk => exact ⟨_, exec_rnd x kk s, ((refl.setReg _).setDraws _).advance 2⟩
  | drw x y n =>
    rcases Nat.lt_or_ge 4096 (s.i.toNat + n.val) with past | fits
    · exact ⟨_, exec_drw_of_gt x y n past, refl.takeFault _⟩
    · exact ⟨_, exec_drw_of_le x y n fits, ((refl.setFb _).setFlag _).advance 2⟩
  | skp x => exact ⟨_, exec_skp x s, refl.advance _⟩
  | sknp x => exact ⟨_, exec_sknp x s, refl.advance _⟩
  | ldVxDt x => exact ⟨_, exec_ldVxDt x s, (refl.setReg _).advance 2⟩
  | ldVxK x =>
    cases key : s.pressed with
    | some k => exact ⟨_, exec_ldVxK_of_some x key, ((refl.setReg _).setPressed _).advance 2⟩
    | none => exact ⟨_, exec_ldVxK_of_none x key, (refl.setWaiting _).setWaitReg _⟩
  | ldDtVx x => exact ⟨_, exec_ldDtVx x s, (refl.setDt _).advance 2⟩
  | ldStVx x => exact ⟨_, exec_ldStVx x s, (refl.setSt _).advance 2⟩
  | addI x => exact ⟨_, exec_addI x s, ((refl.setI (wrapAddr_lt _)).setFlag _).advance 2⟩
  | ldF x => exact ⟨_, exec_ldF x s, (refl.setI (glyphAddr_lt x s)).advance 2⟩
  | ldB x =>
    rw [exec_ldB]
    exact (refl.writeBytes (by simp [writtenParts]) _ _).finishTransfer
  | ldMemVx x =>
    rw [exec_ldMemVx]
    exact (refl.writeBytes (by simp [writtenParts]) _ _).finishTransfer
  | ldVxMem x =>
    rw [exec_ldVxMem]
    exact (refl.readRegs _ (fun r hr => by simpa [writtenRegs] using mem_regsUpTo hr) _).finishTransfer

theorem exec_writesOnly {i : Instr} {s t : State} (e : exec i s = .next t) :
    WritesOnly (writtenRegs i) (writtenParts i) s t := by
  obtain ⟨u, eu, h⟩ := exec_eq_next i s
  cases e.symm.trans eu
  exact h

/-! ### The frame of a chain -/

section
variable {s t : State} {p : Part}

theorem keeps_refl (s : State) (p : Part) : Keeps s s p := by
  cases p with
  | memory => exact fun _ => rfl
  | callStack => exact ⟨rfl, rfl⟩
  | index | delay | sound | display | pressed | waiting | waitReg | fault | draws => rfl

theorem keeps_setReg (h : Keeps s t p) (r : Nibble) (b : Byte) : Keeps s (t.setReg r b) p := by
  cases p <;> exact h

theorem keeps_setPc (h : Keeps s t p) (w : Word) : Keeps s (t.setPc w) p := by
  cases p <;> exact h

theorem keeps_setI (h : Keeps s t p) (hp : p ≠ .index) (w : Word) : Keeps s (t.setI w) p := by
  cases p with
  | index => exact absurd rfl hp
  | _ => exact h

theorem keeps_setDt (h : Keeps s t p) (hp : p ≠ .delay) (b : Byte) : Keeps s (t.setDt b) p := by
  cases p with
  | delay => exact absurd rfl hp
  | _ => exact h

theorem keeps_setSt (h : Keeps s t p) (hp : p ≠ .sound) (b : Byte) : Keeps s (t.setSt b) p := by
  cases p with
  | sound => exact absurd rfl hp
  | _ => exact h

theorem keeps_setMem (h : Keeps s t p) (hp : p ≠ .memory) (m : Memory) : Keeps s (t.setMem m) p := by
  cases p with
  | memory => exact absurd rfl hp
  | _ => exact h

theorem keeps_setFb (h : Keeps s t p) (hp : p ≠ .display) (d : Display) : Keeps s (t.setFb d) p := by
  cases p with
  | display => exact absurd rfl hp
  | _ => exact h

theorem keeps_setPressed (h : Keeps s t p) (hp : p ≠ .pressed) (k : Option Nibble) :
    Keeps s (t.setPressed k) p := by
  cases p with
  | pressed => exact absurd rfl hp
  | _ => exact h

theorem keeps_setWaiting (h : Keeps s t p) (hp : p ≠ .waiting) (b : Bool) :
    Keeps s (t.setWaiting b) p := by
  cases p with
  | waiting => exact absurd rfl hp
  | _ => exact h

theorem keeps_setWaitReg (h : Keeps s t p) (hp : p ≠ .waitReg) (r : Nibble) :
    Keeps s (t.setWaitReg r) p := by
  cases p with
  | waitReg => exact absurd rfl hp
  | _ => exact h

theorem keeps_setDraws (h : Keeps s t p) (hp : p ≠ .draws) (k : Nat) : Keeps s (t.setDraws k) p := by
  cases p with
  | draws => exact absurd rfl hp
  | _ => exact h

theorem keeps_setStack (h : Keeps s t p) (hp : p ≠ .callStack) (sp : Fin 17) (stack : Vector Word 16) :
    Keeps s (t.setStack sp stack) p := by
  cases p with
  | callStack => exact absurd rfl hp
  | _ => exact h

theorem keeps_takeFault (h : Keeps s t p) (hp : p ≠ .fault) (f : Fault) :
    Keeps s (takeFault f t) p := by
  cases p with
  | fault => exact absurd rfl hp
  | _ => exact h

end

theorem WritesOnly.keepsAllBut {regs : List Nibble} {parts : List Part} {s t : State}
    (h : WritesOnly regs parts s t) : KeepsAllBut parts s t := by
  intro p hp
  have ne {q : Part} (hq : q ∈ parts) : p ≠ q := (ne_of_mem_of_not_mem hq hp).symm
  induction h with
  | refl => exact keeps_refl s p
  | setReg _ _ _ ih => exact keeps_setReg ih _ _
  | setPc _ _ ih => exact keeps_setPc ih _
  | setI _ _ hq ih => exact keeps_setI ih (ne hq) _
  | setDt _ _ hq ih => exact keeps_setDt ih (ne hq) _
  | setSt _ _ hq ih => exact keeps_setSt ih (ne hq) _
  | store _ _ _ hq ih => exact keeps_setMem ih (ne hq) _
  | setFb _ _ hq ih => exact keeps_setFb ih (ne hq) _
  | setPressed _ _ hq ih => exact keeps_setPressed ih (ne hq) _
  | setWaiting _ _ hq ih => exact keeps_setWaiting ih (ne hq) _
  | setWaitReg _ _ hq ih => exact keeps_setWaitReg ih (ne hq) _
  | setDraws _ _ hq ih => exact keeps_setDraws ih (ne hq) _
  | pop _ _ hq ih => exact keeps_setStack ih (ne hq) _ _
  | push _ _ _ _ hq ih => exact keeps_setStack ih (ne hq) _ _
  | takeFault _ _ hq ih => exact keeps_takeFault ih (ne hq) _

theorem WritesOnly.keepsRegsBut {regs : List Nibble} {parts : List Part} {s t : State}
    (h : WritesOnly regs parts s t) : KeepsRegsBut regs s t := by
  intro q hq
  induction h with
  | refl => rfl
  | setReg _ _ hr ih => exact (reg_setReg_of_ne _ (ne_of_mem_of_not_mem hr hq).symm _).trans ih
  | setPc _ _ ih => exact ih
  | setI _ _ _ ih | setDt _ _ _ ih | setSt _ _ _ ih | store _ _ _ _ ih | setFb _ _ _ ih
  | setPressed _ _ _ ih | setWaiting _ _ _ ih | setWaitReg _ _ _ ih | setDraws _ _ _ ih | pop _ _ _ ih
  | push _ _ _ _ _ ih | takeFault _ _ _ ih => exact ih

/-- Settles O56: an instruction is a chain of the updates its tables list, and a chain keeps the rest. -/
theorem instructionsWriteOnlyWhatTheTablesSay : Obligations.InstructionsWriteOnlyWhatTheTablesSay :=
  fun _ _ _ e => ⟨(exec_writesOnly e).keepsRegsBut, (exec_writesOnly e).keepsAllBut⟩

/-- The registers and pieces of state an instruction keeps, from its tables (O56). -/
theorem exec_frame {i : Instr} {s t : State} (e : exec i s = .next t) :
    KeepsRegsBut (writtenRegs i) s t ∧ KeepsAllBut (writtenParts i) s t :=
  instructionsWriteOnlyWhatTheTablesSay i s t e

/-- A part that keeps its value drops out of the parts that may change. -/
theorem keepsAllBut_of_keeps {parts parts' : List Part} {s t : State} (h : KeepsAllBut parts s t)
    (kept : ∀ p ∈ parts, p ∉ parts' → Keeps s t p) : KeepsAllBut parts' s t := fun p hp =>
  if listed : p ∈ parts then kept p listed hp else h p listed

/-- The frame of an instruction that could have raised a fault and raised none. -/
theorem keepsAllBut_of_latch {parts parts' : List Part} {s t : State} (h : KeepsAllBut parts s t)
    (latch : t.faulted = s.faulted) (listed : ∀ p ∈ parts, p = .fault ∨ p ∈ parts') :
    KeepsAllBut parts' s t :=
  keepsAllBut_of_keeps h fun p hp notListed => by
    obtain rfl | h := listed p hp
    · exact latch
    · exact absurd h notListed

/-! ### The invariant along a chain -/

theorem WritesOnly.inv {regs : List Nibble} {parts : List Part} {s t : State}
    (h : WritesOnly regs parts s t) (hs : Inv s) : Inv t := by
  induction h with
  | refl => exact hs
  | setPc _ hw ih =>
    refine { ih with pc_range := ?_ }
    obtain below | ⟨k, rfl⟩ := hw
    · exact below
    · exact ih.stack_range k
  | setI _ hw _ ih => exact { ih with index_range := hw }
  | store _ _ ha _ ih => exact { ih with mem_wf := wf_put _ ha ih.mem_wf }
  | push _ _ hk hw _ ih =>
    refine { ih with stack_range := fun j => ?_ }
    simp only [setStack_stack, Fin.getElem_fin, Vector.getElem_set]
    split
    · exact hw
    · exact ih.stack_range j
  | setReg _ _ _ ih | setDt _ _ _ ih | setSt _ _ _ ih | setFb _ _ _ ih | setPressed _ _ _ ih
  | setWaiting _ _ _ ih | setWaitReg _ _ _ ih | setDraws _ _ _ ih | pop _ _ _ ih
  | takeFault _ _ _ ih => exact { ih with }

end Sys2Proof.Proofs
end

section
/-! How an instruction ends: what becomes of `PC` and of the fault latch (40_step_cycle.md rule R122,
60_exceptions.md rules R241 to R251). -/

namespace Sys2Proof.Proofs

open Sys2Proof.Machine Sys2Proof.Laws Sys2Proof.Safety

/-- The fault an instruction can raise with no other effect (60_exceptions.md rules R243, R245 to
R247). -/
inductive Raises : Instr → Fault → Prop where
  | sys (nnn : Addr12) : Raises (.sys nnn) (.illegalOpcode (encode (.sys nnn)))
  | call (nnn : Addr12) : Raises (.call nnn) .stackOverflow
  | ret : Raises .ret .stackUnderflow
  | drw (x y n : Nibble) (a : Nat) : Raises (.drw x y n) (.addressError a)

/-- The three instructions that move bytes one by one (43_index_memory.md rules R183 to R185). -/
def IsTransfer (i : Instr) : Prop := ∃ x, i = .ldB x ∨ i = .ldMemVx x ∨ i = .ldVxMem x

/-- The ways the instruction `i` can end in state `s`. -/
inductive Ends (i : Instr) (s : State) : State → Prop where
  | movesOn {t : State} (cls : pcClass i = .plain) (pc : t.pc = s.pc) (latch : t.faulted = s.faulted) :
      Ends i s (t.advance 2)
  | skips {k} (cls : pcClass i = .skip) (dist : k = 2 ∨ k = 4) : Ends i s (s.advance k)
  | jumps {t : State} (cls : pcClass i = .setsPc) (target : JumpedTo i s t)
      (latch : t.faulted = s.faulted) : Ends i s t
  | takesKey {x k} (eq : i = .ldVxK x) (key : s.pressed = some k) : Ends i s ((s.takeKey x k).advance 2)
  | waits {x} (eq : i = .ldVxK x) (key : s.pressed = none) : Ends i s (s.enterWait x)
  | faults {f} (raises : Raises i f) : Ends i s (takeFault f s)
  | cutShort {t : State} (a : Nat) (transfer : IsTransfer i) (pc : t.pc = s.pc) :
      Ends i s (takeFault (.addressError a) t)

theorem writeBytes_fault {a : Nat} {bytes : List Byte} {s : State} {f : Fault}
    (h : (writeBytes a bytes s).2 = some f) : ∃ b, f = .addressError b := by
  rw [writeBytes_eq] at h
  split at h
  · cases h
  · exact ⟨_, (Option.some.inj h).symm⟩

theorem readRegs_fault {a : Nat} {x : Nibble} {s : State} {f : Fault}
    (h : (readRegs a (regsUpTo x) s).2 = some f) : ∃ b, f = .addressError b := by
  rw [(readRegs_regsUpTo a x s).2] at h
  split at h
  · cases h
  · exact ⟨_, (Option.some.inj h).symm⟩

/-- A transfer that has touched neither `PC` nor the latch moves on, or is cut short by its fault. -/
theorem ends_finishTransfer {i : Instr} {s : State} {r : State × Option Fault} (cls : pcClass i = .plain)
    (transfer : IsTransfer i) (pc : r.1.pc = s.pc) (latch : r.1.faulted = s.faulted)
    (fault : ∀ f, r.2 = some f → ∃ a, f = .addressError a) :
    ∃ t, finishTransfer r = .next t ∧ Ends i s t := by
  obtain ⟨t, _ | f⟩ := r
  · exact ⟨_, rfl, .movesOn cls pc latch⟩
  · obtain ⟨a, rfl⟩ := fault f rfl
    exact ⟨_, rfl, .cutShort a transfer pc⟩

theorem ends_writeBytes {i : Instr} (cls : pcClass i = .plain) (transfer : IsTransfer i) (a : Nat)
    (bytes : List Byte) (s : State) :
    ∃ t, finishTransfer (writeBytes a bytes s) = .next t ∧ Ends i s t := by
  refine ends_finishTransfer cls transfer ?_ ?_ fun _ => writeBytes_fault
  · rw [writeBytes_eq]; rfl
  · rw [writeBytes_eq]; rfl

theorem ends_readRegs {i : Instr} (cls : pcClass i = .plain) (transfer : IsTransfer i) (a : Nat)
    (x : Nibble) (s : State) :
    ∃ t, finishTransfer (readRegs a (regsUpTo x) s) = .next t ∧ Ends i s t := by
  obtain ⟨v, regs⟩ := readRegs_fields (regsUpTo x) a s
  refine ends_finishTransfer cls transfer ?_ ?_ fun _ => readRegs_fault
  · rw [regs]
  · rw [regs]

theorem jumpedTo_jp (nnn : Addr12) (s : State) : JumpedTo (.jp nnn) s (s.setPc (absoluteAddr nnn)) := by
  simp [JumpedTo]

theorem jumpedTo_jpV0 (nnn : Addr12) (s : State) :
    JumpedTo (.jpV0 nnn) s (s.setPc (offsetAddr nnn s)) := by
  simp [JumpedTo]

theorem jumpedTo_call (nnn : Addr12) (s t : State) :
    JumpedTo (.call nnn) s (t.setPc (absoluteAddr nnn)) := by
  simp [JumpedTo]

theorem jumpedTo_ret {s t : State} (k : Fin 16) (sp : s.sp.val = k.val + 1) (pc : t.pc = s.stack[k]) :
    JumpedTo .ret s t := by
  simp only [JumpedTo, reduceCtorEq, or_self, false_implies, implies_true, true_and]
  exact fun _ => ⟨k, sp, pc⟩

theorem exec_ends_total (i : Instr) (s : State) : ∃ t, exec i s = .next t ∧ Ends i s t := by
  cases i with
  | sys nnn => exact ⟨_, exec_sys nnn s, .faults (.sys nnn)⟩
  | cls => exact ⟨_, exec_cls s, .movesOn rfl rfl rfl⟩
  | ret =>
    rcases Nat.eq_zero_or_pos s.sp.val with empty | pos
    · exact ⟨_, exec_ret_of_empty empty, .faults .ret⟩
    · refine ⟨_, exec_ret_of_pos pos, .jumps rfl ?_ rfl⟩
      exact jumpedTo_ret ⟨s.sp.val - 1, by omega⟩ (Nat.sub_add_cancel pos).symm rfl
  | jp nnn => exact ⟨_, exec_jp nnn s, .jumps rfl (jumpedTo_jp nnn s) rfl⟩
  | call nnn =>
    rcases Nat.lt_or_ge s.sp.val 16 with room | full
    · exact ⟨_, exec_call_of_lt nnn room, .jumps rfl (jumpedTo_call nnn s _) rfl⟩
    · exact ⟨_, exec_call_of_full nnn (by omega), .faults (.call nnn)⟩
  | seByte x kk => exact ⟨_, exec_seByte x kk s, .skips rfl (ite_eq_or_eq ..).symm⟩
  | sneByte x kk => exact ⟨_, exec_sneByte x kk s, .skips rfl (ite_eq_or_eq ..)⟩
  | seReg x y => exact ⟨_, exec_seReg x y s, .skips rfl (ite_eq_or_eq ..).symm⟩
  | sneReg x y => exact ⟨_, exec_sneReg x y s, .skips rfl (ite_eq_or_eq ..)⟩
  | skp x => exact ⟨_, exec_skp x s, .skips rfl (ite_eq_or_eq ..).symm⟩
  | sknp x => exact ⟨_, exec_sknp x s, .skips rfl (ite_eq_or_eq ..)⟩
  | ldByte x kk => exact ⟨_, exec_ldByte x kk s, .movesOn rfl rfl rfl⟩
  | addByte x kk => exact ⟨_, exec_addByte x kk s, .movesOn rfl rfl rfl⟩
  | ldReg x y => exact ⟨_, exec_ldReg x y s, .movesOn rfl rfl rfl⟩
  | orReg x y => exact ⟨_, exec_orReg x y s, .movesOn rfl rfl rfl⟩
  | andReg x y => exact ⟨_, exec_andReg x y s, .movesOn rfl rfl rfl⟩
  | xorReg x y => exact ⟨_, exec_xorReg x y s, .movesOn rfl rfl rfl⟩
  | addReg x y => exact ⟨_, exec_addReg x y s, .movesOn rfl rfl rfl⟩
  | subReg x y => exact ⟨_, exec_subReg x y s, .movesOn rfl rfl rfl⟩
  | shr x y => exact ⟨_, exec_shr x y s, .movesOn rfl rfl rfl⟩
  | subn x y => exact ⟨_, exec_subn x y s, .movesOn rfl rfl rfl⟩
  | shl x y => exact ⟨_, exec_shl x y s, .movesOn rfl rfl rfl⟩
  | ldI nnn => exact ⟨_, exec_ldI nnn s, .movesOn rfl rfl rfl⟩
  | jpV0 nnn => exact ⟨_, exec_jpV0 nnn s, .jumps rfl (jumpedTo_jpV0 nnn s) rfl⟩
  | rnd x kk => exact ⟨_, exec_rnd x kk s, .movesOn rfl rfl rfl⟩
  | drw x y n =>
    rcases Nat.lt_or_ge 4096 (s.i.toNat + n.val) with past | fits
    · exact ⟨_, exec_drw_of_gt x y n past, .faults (.drw x y n _)⟩
    · exact ⟨_, exec_drw_of_le x y n fits, .movesOn rfl rfl rfl⟩
  | ldVxDt x => exact ⟨_, exec_ldVxDt x s, .movesOn rfl rfl rfl⟩
  | ldVxK x =>
    cases key : s.pressed with
    | some k => exact ⟨_, exec_ldVxK_of_some x key, .takesKey rfl key⟩
    | none => exact ⟨_, exec_ldVxK_of_none x key, .waits rfl key⟩
  | ldDtVx x => exact ⟨_, exec_ldDtVx x s, .movesOn rfl rfl rfl⟩
  | ldStVx x => exact ⟨_, exec_ldStVx x s, .movesOn rfl rfl rfl⟩
  | addI x => exact ⟨_, exec_addI x s, .movesOn rfl rfl rfl⟩
  | ldF x => exact ⟨_, exec_ldF x s, .movesOn rfl rfl rfl⟩
  | ldB x => exact ends_writeBytes rfl ⟨x, .inl rfl⟩ _ _ s
  | ldMemVx x => exact ends_writeBytes rfl ⟨x, .inr (.inl rfl)⟩ _ _ s
  | ldVxMem x => exact ends_readRegs rfl ⟨x, .inr (.inr rfl)⟩ _ x s

theorem exec_ends {i : Instr} {s t : State} (e : exec i s = .next t) : Ends i s t := by
  obtain ⟨u, eu, h⟩ := exec_ends_total i s
  cases e.symm.trans eu
  exact h

theorem movedOn_advance {s t : State} (k : Nat) (pc : t.pc = s.pc) : MovedOn k s (t.advance k) := by
  rw [MovedOn, advance_pc, pcPlus_toNat, pc]

/-- Settles O57: each way an instruction can end fixes what becomes of `PC`. -/
theorem programCounterPolicy : Obligations.ProgramCounterPolicy := by
  intro i s t ok e
  cases exec_ends e with
  | @movesOn t cls pc latch =>
    simpa [latch, ok, cls] using movedOn_advance 2 pc
  | skips cls dist =>
    obtain rfl | rfl := dist
    · simpa [ok, cls] using .inl (movedOn_advance 2 rfl)
    · simpa [ok, cls] using .inr (movedOn_advance 4 rfl)
  | jumps cls target latch => simpa [latch, ok, cls] using target
  | @takesKey x k eq key =>
    subst eq
    simpa [ok, pcClass, key] using movedOn_advance 2 (takeKey_pc s x k)
  | waits eq key =>
    subst eq
    simp [ok, pcClass, key]
  | faults => simp
  | cutShort _ _ pc => simpa using pc

/-- From a state with no fault, a fault that an instruction latches is the one it raises, or the address
error of a transfer. -/
theorem raises_of_exec {i : Instr} {s t : State} {f : Fault} (ok : s.faulted = none)
    (e : exec i s = .next t) (bad : t.faulted = some f) :
    (Raises i f ∧ t = takeFault f s) ∨ (IsTransfer i ∧ ∃ a, f = .addressError a) := by
  cases exec_ends e with
  | faults raises => cases bad; exact .inl ⟨raises, rfl⟩
  | cutShort a transfer => cases bad; exact .inr ⟨transfer, a, rfl⟩
  | movesOn _ _ latch | jumps _ _ latch =>
    cases bad.symm.trans (latch.trans ok)
  | skips | takesKey | waits => cases bad.symm.trans ok

/-- Settles O58: what is not a transfer raises its fault in the state it found. -/
theorem faultsArePrecise : Obligations.FaultsArePrecise := by
  intro i s t f ok e bad notTransfer
  obtain ⟨-, rfl⟩ | ⟨⟨x, transfer⟩, -⟩ := raises_of_exec ok e bad
  · exact onlyFaulted_takeFault f s
  · obtain ⟨h1, h2, h3⟩ := notTransfer x
    rcases transfer with h | h | h
    · exact absurd h h1
    · exact absurd h h2
    · exact absurd h h3

end Sys2Proof.Proofs
end

section
/-! The step: what it answers in each of its cases, that it is total, and the faults it reports
(40_step_cycle.md rules R121 to R124). -/

namespace Sys2Proof.Proofs

open Sys2Proof.Machine Sys2Proof.Laws Sys2Proof.Safety

section
variable {s : State} {f : Fault} {w : Word}

theorem step_of_faulted (bad : s.faulted = some f) : step s = .fault f := by
  simp only [step, bad, stepFaulted]

theorem step_of_waiting (ok : s.faulted = none) (wait : s.waiting = true) : step s = stepWaiting s := by
  simp only [step, ok, wait, if_true]

theorem step_of_fetch_error (run : Running s) (fetched : fetch s = .error f) :
    step s = .next (takeFault f s) := by
  simp only [step, run.1, run.2, fetched, raise, Bool.false_eq_true, if_false]

theorem step_of_unrecognized {u : Word} (run : Running s) (fetched : fetch s = .ok w)
    (decoded : decodeWord w = .unrecognized u) : step s = .next (takeFault (.illegalOpcode u) s) := by
  simp only [step, run.1, run.2, fetched, decoded, raiseIllegal, raise, Bool.false_eq_true, if_false]

theorem step_of_instr {i : Instr} (run : Running s) (fetched : fetch s = .ok w)
    (decoded : decodeWord w = .instr i) : step s = exec i s := by
  simp only [step, run.1, run.2, fetched, decoded, Bool.false_eq_true, if_false]

theorem stepWaiting_of_none (key : s.pressed = none) : stepWaiting s = .next s := by
  simp only [stepWaiting, key]

theorem stepWaiting_of_some {k : Nibble} (key : s.pressed = some k) :
    stepWaiting s = .next (((s.takeKey s.waitReg k).setWaiting false).advance 2) := by
  simp only [stepWaiting, key, completed]

end

/-- Settles O5: the equation of a step that decodes an instruction. -/
theorem stepRunsTheDecodedInstruction : Obligations.StepRunsTheDecodedInstruction :=
  fun _ _ _ => step_of_instr

/-- Settles O6: the second byte of the word at 0xFFF lies outside memory. -/
theorem fetchAtLastAddressFaults : Obligations.FetchAtLastAddressFaults := by
  intro s run top
  have fetched : fetch s = .error (.addressError 0xFFF) := by
    rw [fetch, top]; exact memReadWord_of_ge (by decide) s
  exact ⟨_, step_of_fetch_error run fetched, onlyFaulted_takeFault _ s⟩

/-- A key that ends a wait is written to the latched register. -/
theorem takeKey_writesOnly (s : State) (r k : Nibble) :
    WritesOnly [r] [.pressed, .waiting] s (((s.takeKey r k).setWaiting false).advance 2) :=
  (((WritesOnly.refl.setReg (keyByte k) (by simp)).setPressed none (by simp)).setWaiting false
    (by simp)).advance 2

/-- Settles O7: the two cases of a waiting step. -/
theorem stepWhileWaiting : Obligations.StepWhileWaiting := by
  intro s ok wait
  rw [step_of_waiting ok wait]
  refine ⟨stepWaiting_of_none, fun k key => ⟨_, stepWaiting_of_some key, ?_, rfl, rfl, ?_, ?_, ?_⟩⟩
  · simp [reg_takeKey]
  · exact movedOn_advance 2 rfl
  · exact (takeKey_writesOnly s s.waitReg k).keepsRegsBut
  · exact (takeKey_writesOnly s s.waitReg k).keepsAllBut

/-! ### The states a step reaches -/

/-- How a step with no fault latched reaches its next state (R121). -/
inductive StepsTo (s : State) : State → Prop where
  | idles (wait : s.waiting = true) (key : s.pressed = none) : StepsTo s s
  | endsWait {k} (wait : s.waiting = true) (key : s.pressed = some k) :
      StepsTo s (((s.takeKey s.waitReg k).setWaiting false).advance 2)
  | fetchFaults {f} (run : s.waiting = false) (fetched : fetch s = .error f) : StepsTo s (takeFault f s)
  | illegal {w u} (run : s.waiting = false) (fetched : fetch s = .ok w)
      (decoded : decodeWord w = .unrecognized u) : StepsTo s (takeFault (.illegalOpcode u) s)
  | runs {w i t} (run : s.waiting = false) (fetched : fetch s = .ok w)
      (decoded : decodeWord w = .instr i) (executed : exec i s = .next t) : StepsTo s t

theorem step_eq_next {s : State} (ok : s.faulted = none) : ∃ t, step s = .next t ∧ StepsTo s t := by
  cases waiting : s.waiting with
  | true =>
    rw [step_of_waiting ok waiting]
    cases key : s.pressed with
    | none => exact ⟨_, stepWaiting_of_none key, .idles waiting key⟩
    | some k => exact ⟨_, stepWaiting_of_some key, .endsWait waiting key⟩
  | false =>
    cases fetched : fetch s with
    | error f => exact ⟨_, step_of_fetch_error ⟨waiting, ok⟩ fetched, .fetchFaults waiting fetched⟩
    | ok w =>
      cases decoded : decodeWord w with
      | unrecognized u =>
        exact ⟨_, step_of_unrecognized ⟨waiting, ok⟩ fetched decoded, .illegal waiting fetched decoded⟩
      | instr i =>
        obtain ⟨t, executed, -⟩ := exec_eq_next i s
        exact ⟨t, (step_of_instr ⟨waiting, ok⟩ fetched decoded).trans executed,
          .runs waiting fetched decoded executed⟩

/-- A step that answers a next state found no fault latched. -/
theorem stepsTo_of_step {s t : State} (e : step s = .next t) : s.faulted = none ∧ StepsTo s t := by
  cases latch : s.faulted with
  | some f => cases (step_of_faulted latch).symm.trans e
  | none =>
    obtain ⟨u, eu, h⟩ := step_eq_next latch
    cases e.symm.trans eu
    exact ⟨rfl, h⟩

/-- Settles O9: a latched fault is answered, and every other step reaches a state. -/
theorem stepIsTotal : Obligations.StepIsTotal := by
  intro s
  cases latch : s.faulted with
  | some f => exact .inr ⟨f, rfl, step_of_faulted latch⟩
  | none =>
    obtain ⟨t, e, -⟩ := step_eq_next latch
    exact .inl ⟨t, rfl, e⟩

/-- Settles O4: the table lists the words without a tag, SYS raises its own word, and no other
instruction raises IllegalOpcode. -/
theorem illegalWordsAreExactlyTheListed : Obligations.IllegalWordsAreExactlyTheListed := by
  intro s w run fetched
  constructor
  · rintro (untagged | sysWord)
    · have decoded := decodeWord_eq_unrecognized.2 ⟨rfl, untagged⟩
      exact ⟨_, step_of_unrecognized run fetched decoded, onlyFaulted_takeFault _ s⟩
    · obtain ⟨nnn, decoded⟩ := decodeWord_eq_sys.2 sysWord
      obtain ⟨rfl, -⟩ := encodeOfDecode w _ decoded
      exact ⟨_, (step_of_instr run fetched decoded).trans (exec_sys nnn s), onlyFaulted_takeFault _ s⟩
  · rintro ⟨t, e, bad, -⟩
    cases decoded : decodeWord w with
    | unrecognized u => exact .inl (decodeWord_eq_unrecognized.1 decoded).2
    | instr i =>
      rw [step_of_instr run fetched decoded] at e
      obtain ⟨raises, -⟩ | ⟨-, a, h⟩ := raises_of_exec run.2 e bad
      · cases raises with
        | sys nnn => exact .inr (decodeWord_eq_sys.1 ⟨nnn, decoded⟩)
      · cases h

/-! ### The faults of a step -/

/-- The four kinds of fault a step can latch (R124). -/
def IsStepFault (f : Fault) : Prop :=
  (∃ a, f = .addressError a) ∨ (∃ w, f = .illegalOpcode w) ∨ f = .stackOverflow ∨ f = .stackUnderflow

section
variable {s t : State} {f : Fault}

theorem isStepFault_of_raises {i : Instr} (h : Raises i f) : IsStepFault f := by
  cases h with
  | sys nnn => exact .inr (.inl ⟨_, rfl⟩)
  | call nnn => exact .inr (.inr (.inl rfl))
  | ret => exact .inr (.inr (.inr rfl))
  | drw x y n a => exact .inl ⟨a, rfl⟩

theorem isStepFault_of_fetch (h : fetch s = .error f) : IsStepFault f := by
  refine .inl ⟨s.pc.toNat, ?_⟩
  rcases Nat.lt_or_ge (s.pc.toNat + 1) 4096 with inside | outside
  · cases (memReadWord_of_lt inside s).symm.trans h
  · cases (memReadWord_of_ge outside s).symm.trans h
    rfl

theorem StepsTo.isStepFault (h : StepsTo s t) (ok : s.faulted = none) (bad : t.faulted = some f) :
    IsStepFault f := by
  cases h with
  | idles | endsWait => cases bad.symm.trans ok
  | fetchFaults _ fetched => cases bad; exact isStepFault_of_fetch fetched
  | illegal => cases bad; exact .inr (.inl ⟨_, rfl⟩)
  | runs _ _ _ executed =>
    obtain ⟨raises, -⟩ | ⟨-, address⟩ := raises_of_exec ok executed bad
    · exact isStepFault_of_raises raises
    · exact .inl address

theorem stepEvent_of_next (e : step s = .next t) : stepEvent s = (t, reportOf t) := by
  simp only [stepEvent, e]

theorem stepEvent_of_faulted (bad : s.faulted = some f) : stepEvent s = (s, .fault f) := by
  simp only [stepEvent, step_of_faulted bad]

theorem stepEvent_report (ok : s.faulted = none) :
    (stepEvent s).2 = .ok ∨ ∃ f, IsStepFault f ∧ (stepEvent s).2 = .fault f := by
  obtain ⟨t, e, h⟩ := step_eq_next ok
  rw [stepEvent_of_next e, reportOf]
  cases bad : t.faulted with
  | none => exact .inl rfl
  | some f => exact .inr ⟨f, h.isStepFault ok bad, rfl⟩

end

end Sys2Proof.Proofs
end

section
/-! The host's events: what each writes, the invariants along every run, and the runs that change nothing
(40_step_cycle.md rules R120, R123, R125; 60_exceptions.md rules R262 to R267). -/

namespace Sys2Proof.Proofs

open Sys2Proof.Machine Sys2Proof.Laws Sys2Proof.Safety

/-! ### The events beside the step and reset() -/

section
variable (s : State) {code : Nat}

theorem keyEvent_of_lt (event : Nibble → State → State) (h : code < 16) :
    keyEvent event code s = (event ⟨code, h⟩ s, .ok) := dif_pos h

theorem keyEvent_of_ge (event : Nibble → State → State) (h : 16 ≤ code) :
    keyEvent event code s = (s, .refused (.keyCodeOutOfDomain code)) := dif_neg (Nat.not_lt.2 h)

theorem clearKey_of_pressed {k : Nibble} (h : s.pressed = some k) : clearKey k s = s.setPressed none :=
  if_pos h

theorem clearKey_of_not_pressed {k : Nibble} (h : s.pressed ≠ some k) : clearKey k s = s := if_neg h

end

/-- Settles O55: the equations of the key events and of the forced clear. -/
theorem hostInputEvents : Obligations.HostInputEvents := by
  intro code s
  refine ⟨fun h => ⟨keyEvent_of_lt s setKey h, fun pressed => ?_, fun notPressed => ?_⟩,
    fun h => ⟨keyEvent_of_ge s setKey h, keyEvent_of_ge s clearKey h⟩, rfl⟩
  · rw [applyEvent, keyEvent_of_lt s clearKey h, clearKey_of_pressed s pressed]; rfl
  · rw [applyEvent, keyEvent_of_lt s clearKey h, clearKey_of_not_pressed s notPressed]

/-- The pieces of state an event other than a step and `reset()` may write. -/
def hostParts : Event → List Part
  | .tickTimers => [.delay, .sound]
  | .setKey _ | .clearKey _ => [.pressed]
  | .forceClearWait => [.waiting]
  | .loadProgram _ => [.memory]
  | .step | .reset => []

section
variable {regs : List Nibble} {parts : List Part} {s t : State}

theorem WritesOnly.putAll (hp : .memory ∈ parts) (bytes : List Byte) (a : Nat)
    (fits : a + bytes.length ≤ 4096) (h : WritesOnly regs parts s t) :
    WritesOnly regs parts s (t.setMem (Memory.putAll t.mem a bytes)) := by
  have written := h.writeBytes hp bytes a
  rw [writeBytes_eq, List.take_of_length_le (by omega)] at written
  exact written

end

/-- An event other than a step and `reset()` is a chain of updates of its pieces of state, and does not
move `PC`. -/
theorem applyEvent_hostEvent {e : Event} (notStep : e ≠ .step) (notReset : e ≠ .reset) (s : State) :
    WritesOnly [] (hostParts e) s (applyEvent e s).1 ∧ (applyEvent e s).1.pc = s.pc := by
  cases e with
  | step => exact absurd rfl notStep
  | reset => exact absurd rfl notReset
  | tickTimers =>
    exact ⟨(WritesOnly.refl.setDt _ (by simp [hostParts])).setSt _ (by simp [hostParts]), rfl⟩
  | setKey code =>
    rcases Nat.lt_or_ge code 16 with h | h
    · rw [applyEvent, keyEvent_of_lt s _ h]
      exact ⟨WritesOnly.refl.setPressed _ (by simp [hostParts]), rfl⟩
    · rw [applyEvent, keyEvent_of_ge s _ h]
      exact ⟨.refl, rfl⟩
  | clearKey code =>
    rcases Nat.lt_or_ge code 16 with h | h
    · rw [applyEvent, keyEvent_of_lt s _ h]
      rcases clearKey_cases s ⟨code, h⟩ with ⟨-, e⟩ | ⟨-, e⟩
      · rw [e]
        exact ⟨WritesOnly.refl.setPressed none (by simp [hostParts]), rfl⟩
      · rw [e]
        exact ⟨.refl, rfl⟩
    · rw [applyEvent, keyEvent_of_ge s _ h]
      exact ⟨.refl, rfl⟩
  | forceClearWait => exact ⟨WritesOnly.refl.setWaiting false (by simp [hostParts]), rfl⟩
  | loadProgram bytes =>
    rw [applyEvent]
    rcases loadEvent_cases s bytes with ⟨fits, -, e⟩ | ⟨-, -, e⟩ | ⟨-, e⟩
    · rw [e]
      exact ⟨WritesOnly.refl.putAll (by simp [hostParts]) bytes 0x200 (by omega), rfl⟩
    · rw [e]
      exact ⟨.refl, rfl⟩
    · rw [e]
      exact ⟨.refl, rfl⟩

/-- A step event goes to the next state of the step, or stays with the latched fault. -/
theorem applyEvent_step_cases (s : State) :
    (s.faulted = none ∧ ∃ t, step s = .next t ∧ StepsTo s t ∧ (applyEvent .step s).1 = t) ∨
    ∃ f, s.faulted = some f ∧ applyEvent .step s = (s, .fault f) := by
  cases latch : s.faulted with
  | some f => exact .inr ⟨f, rfl, stepEvent_of_faulted latch⟩
  | none =>
    obtain ⟨t, e, h⟩ := step_eq_next latch
    exact .inl ⟨rfl, t, e, h, by rw [applyEvent, stepEvent_of_next e]⟩

/-- Settles O8: the reports of a step, and that the latch is written by a step without a fault and by
`reset()` only. -/
theorem stepOutcomesAndTheFaultLatch : Obligations.StepOutcomesAndTheFaultLatch := by
  refine ⟨fun s ok => ?report, fun s f => stepEvent_of_faulted, fun e s f notReset bad => ?latch⟩
  case report =>
    rcases stepEvent_report ok with h | ⟨f, ⟨a, rfl⟩ | ⟨w, rfl⟩ | rfl | rfl, h⟩
    · exact .inl h
    · exact .inr (.inl ⟨a, h⟩)
    · exact .inr (.inr (.inl ⟨w, h⟩))
    · exact .inr (.inr (.inr (.inl h)))
    · exact .inr (.inr (.inr (.inr h)))
  case latch =>
    by_cases isStep : e = .step
    · rw [isStep, applyEvent, stepEvent_of_faulted bad, bad]
    · have notWritten : .fault ∉ hostParts e := by cases e <;> simp [hostParts]
      exact ((applyEvent_hostEvent isStep notReset s).1.keepsAllBut .fault notWritten).trans bad

/-! ### Runs -/

/-- What every event of a run keeps, the run keeps. -/
theorem runEvents_induction {P : State → Prop} (es : List Event)
    (keep : ∀ e ∈ es, ∀ s, P s → P (applyEvent e s).1) (s : State) (hs : P s) : P (runEvents es s) := by
  induction es generalizing s with
  | nil => exact hs
  | cons e es ih =>
    obtain ⟨head, tail⟩ := List.forall_mem_cons.1 keep
    exact ih tail _ (head s hs)

/-! ### Address registers and canonical memory -/

/-- Settles O15: a step idles, ends a wait, latches a fault or runs an instruction, and each is a chain
of updates that write addresses in range only. -/
theorem everyStepKeepsInv : Obligations.EveryStepKeepsInv := by
  intro s t hs e
  cases (stepsTo_of_step e).2 with
  | idles => exact hs
  | endsWait => exact (takeKey_writesOnly s _ _).inv hs
  | fetchFaults | illegal => exact { hs with }
  | runs _ _ _ executed => exact (exec_writesOnly executed).inv hs

theorem inv_resetEvent {s : State} (hs : Inv s) : Inv (resetEvent s) where
  mem_wf := by
    rw [resetEvent_mem]
    exact wf_putAll _ (by rw [font_length]; decide) hs.mem_wf
  index_range := by rw [resetEvent_i]; decide
  pc_range := by rw [resetEvent_pc]; decide
  stack_range := by simp

theorem applyEvent_keeps_inv (e : Event) (s : State) (hs : Inv s) : Inv (applyEvent e s).1 := by
  by_cases isReset : e = .reset
  · rw [isReset]; exact inv_resetEvent hs
  by_cases isStep : e = .step
  · rw [isStep]
    rcases applyEvent_step_cases s with ⟨-, t, e, -, rfl⟩ | ⟨f, -, e⟩
    · exact everyStepKeepsInv s _ hs e
    · rw [e]; exact hs
  · exact (applyEvent_hostEvent isStep isReset s).1.inv hs

/-- Settles O16: induction on the run; the step is O15, `reset()` writes constants and the font, the
other events are chains. -/
theorem everyRunOfEventsKeepsInv : Obligations.EveryRunOfEventsKeepsInv :=
  fun es => runEvents_induction es fun e _ => applyEvent_keeps_inv e

/-! ### The wait -/

/-- A word is read from its two bytes. -/
theorem memReadWord_congr {s t : State} {a : Nat}
    (lo : Memory.byte t.mem a = Memory.byte s.mem a)
    (hi : Memory.byte t.mem (a + 1) = Memory.byte s.mem (a + 1)) :
    memReadWord a t = memReadWord a s := by
  simp only [memReadWord, lo, hi]

theorem memReadWord_of_keeps {s t : State} (h : Keeps s t .memory) (a : Nat) :
    memReadWord a t = memReadWord a s := by
  rcases Nat.lt_or_ge (a + 1) 4096 with inside | outside
  · have byte {b : Nat} (hb : b < 4096) : Memory.byte t.mem b = Memory.byte s.mem b :=
      (memRead_eq_ok.1 ((h b).trans (memRead_of_lt hb s))).2
    exact memReadWord_congr (byte (by omega)) (byte inside)
  · rw [memReadWord_of_ge outside, memReadWord_of_ge outside]

/-- An instruction leaves `waiting` alone, unless it is the LD Vx, K that starts the wait. -/
theorem exec_waiting {i : Instr} {s t : State} (e : exec i s = .next t) :
    t.waiting = s.waiting ∨ ∃ x, i = .ldVxK x ∧ t = s.enterWait x := by
  by_cases written : .waiting ∈ writtenParts i
  · cases i with
    | ldVxK x =>
      cases key : s.pressed with
      | some k => cases e.symm.trans (exec_ldVxK_of_some x key); exact .inl rfl
      | none => cases e.symm.trans (exec_ldVxK_of_none x key); exact .inr ⟨x, rfl, rfl⟩
    | _ => simp [writtenParts] at written
  · exact .inl ((exec_writesOnly e).keepsAllBut .waiting written)

theorem step_keeps_waitInv {s t : State} (ok : s.faulted = none) (h : StepsTo s t) (hs : WaitInv s) :
    WaitInv t := by
  cases h with
  | idles => exact hs
  | endsWait => exact fun waiting => nomatch waiting
  | fetchFaults run | illegal run => exact fun waiting => nomatch run.symm.trans waiting
  | runs run fetched decoded executed =>
    rcases exec_waiting executed with kept | ⟨x, rfl, rfl⟩
    · exact fun waiting => nomatch run.symm.trans (kept.symm.trans waiting)
    · obtain ⟨rfl, -⟩ := encodeOfDecode _ _ decoded
      exact fun _ => ⟨ok, fetched⟩

/-- The wait stands as long as what it depends on stands. -/
theorem waitInv_congr {s t : State} (hs : WaitInv s) (waiting : t.waiting = s.waiting)
    (latch : t.faulted = s.faulted) (reg : t.waitReg = s.waitReg) (pc : t.pc = s.pc)
    (word : s.waiting = true → memReadWord s.pc.toNat t = memReadWord s.pc.toNat s) : WaitInv t := by
  intro wait
  rw [waiting] at wait
  obtain ⟨ok, read⟩ := hs wait
  exact ⟨latch.trans ok, by rw [pc, reg, word wait, read]⟩

theorem loadEvent_keeps_waitInv (bytes : List Byte) {s : State} (hs : WaitInv s) :
    WaitInv (loadEvent bytes s).1 := by
  rcases loadEvent_cases s bytes with ⟨-, kept, e⟩ | ⟨-, -, e⟩ | ⟨-, e⟩
  · rw [e]
    refine waitInv_congr hs rfl rfl rfl rfl fun wait => ?_
    have same := mt (rewritesWaitInstruction_iff s _).2 (by rw [kept]; decide)
    obtain ⟨lo, hi⟩ := Classical.not_not.1 fun changed => same ⟨wait, changed⟩
    exact memReadWord_congr lo hi
  · rw [e]; exact hs
  · rw [e]; exact hs

/-- So does an event that writes none of the pieces the wait depends on. -/
theorem applyEvent_keeps_waitInv_of_parts {e : Event} (notStep : e ≠ .step) (notReset : e ≠ .reset)
    (apart : ∀ p ∈ [Part.waiting, .fault, .waitReg, .memory], p ∉ hostParts e) {s : State}
    (hs : WaitInv s) : WaitInv (applyEvent e s).1 := by
  obtain ⟨chain, pc⟩ := applyEvent_hostEvent notStep notReset s
  have kept (p : Part) (hp : p ∈ [Part.waiting, .fault, .waitReg, .memory]) :
      Keeps s (applyEvent e s).1 p := chain.keepsAllBut p (apart p hp)
  exact waitInv_congr hs (kept .waiting (by simp)) (kept .fault (by simp)) (kept .waitReg (by simp))
    pc fun _ => memReadWord_of_keeps (kept .memory (by simp)) _

theorem applyEvent_keeps_waitInv (e : Event) (s : State) (hs : WaitInv s) :
    WaitInv (applyEvent e s).1 := by
  cases e with
  | step =>
    rcases applyEvent_step_cases s with ⟨ok, t, -, h, rfl⟩ | ⟨f, -, e⟩
    · exact step_keeps_waitInv ok h hs
    · rw [e]; exact hs
  | reset => exact fun waiting => nomatch (resetEvent_waiting s).symm.trans waiting
  | forceClearWait => exact fun waiting => nomatch waiting
  | loadProgram bytes => exact loadEvent_keeps_waitInv bytes hs
  | tickTimers | setKey | clearKey =>
    exact applyEvent_keeps_waitInv_of_parts (by simp) (by simp) (by simp [hostParts]) hs

/-- Settles O17: induction on the run; the wait starts at the word LD Vx, K was decoded from, and while
it lasts no event but `reset()`, which ends it, writes `PC`, `waitReg` or the waiting word. -/
theorem everyRunOfEventsKeepsWaitInv : Obligations.EveryRunOfEventsKeepsWaitInv :=
  fun es => runEvents_induction es fun e _ => applyEvent_keeps_waitInv e

/-! ### Runs that change nothing -/

/-- From `s` to `t`, `PC`, the registers and every piece of state outside `parts` are unchanged. -/
def Undisturbed (parts : List Part) (s t : State) : Prop :=
  t.pc = s.pc ∧ KeepsRegsBut [] s t ∧ KeepsAllBut parts s t

theorem keeps_trans {s t u : State} {p : Part} (h : Keeps s t p) (h' : Keeps t u p) : Keeps s u p := by
  cases p with
  | memory => exact fun a => (h' a).trans (h a)
  | callStack => exact ⟨h'.1.trans h.1, h'.2.trans h.2⟩
  | index | delay | sound | display | pressed | waiting | waitReg | fault | draws => exact h'.trans h

theorem undisturbed_refl (parts : List Part) (s : State) : Undisturbed parts s s :=
  ⟨rfl, fun _ _ => rfl, fun p _ => keeps_refl s p⟩

theorem Undisturbed.trans {parts : List Part} {s t u : State} (h : Undisturbed parts s t)
    (h' : Undisturbed parts t u) : Undisturbed parts s u := by
  obtain ⟨pc, regs, kept⟩ := h
  obtain ⟨pc', regs', kept'⟩ := h'
  exact ⟨pc'.trans pc, fun r hr => (regs' r hr).trans (regs r hr),
    fun p hp => keeps_trans (kept p hp) (kept' p hp)⟩

/-- An event other than a step and `reset()` disturbs nothing but its own pieces of state. -/
theorem applyEvent_undisturbed {e : Event} (notStep : e ≠ .step) (notReset : e ≠ .reset)
    {parts : List Part} (written : hostParts e ⊆ parts) (s : State) :
    Undisturbed parts s (applyEvent e s).1 :=
  have ⟨chain, pc⟩ := applyEvent_hostEvent notStep notReset s
  ⟨pc, chain.keepsRegsBut,
    fun p hp => chain.keepsAllBut p fun h => hp (written h)⟩

/-- A step at a jump to itself changes nothing. -/
theorem step_of_finished {s : State} (h : Finished s) : step s = .next s := by
  obtain ⟨run, ok, fetched⟩ := h
  obtain ⟨inside, -⟩ := memReadWord_eq_ok.1 fetched
  have target : (BitVec.ofNat 12 s.pc.toNat).toNat = s.pc.toNat := by
    rw [BitVec.toNat_ofNat, Nat.mod_eq_of_lt (by omega)]
  have decoded : ReadsAs (0x1000 + s.pc.toNat) (.jp (BitVec.ofNat 12 s.pc.toNat)) :=
    readsAs_of_encode rfl (ofNat_eq_packA 1 _ _ (by rw [target]))
  rw [step_of_instr ⟨run, ok⟩ fetched decoded, exec_jp]
  have stays : absoluteAddr (BitVec.ofNat 12 s.pc.toNat) = s.pc :=
    BitVec.eq_of_toNat_eq (by rw [absoluteAddr_toNat, target])
  rw [stays]
  rfl

/-- The parts a run of steps, ticks and key events may write from a finished state. -/
abbrev finishedParts : List Part := [.delay, .sound, .pressed]

theorem finished_of_undisturbed {s t : State} (hs : Finished s) (h : Undisturbed finishedParts s t) :
    Finished t := by
  obtain ⟨run, ok, read⟩ := hs
  obtain ⟨pc, -, kept⟩ := h
  refine ⟨(kept .waiting (by decide)).trans run, (kept .fault (by decide)).trans ok, ?_⟩
  rw [pc, memReadWord_of_keeps (kept .memory (by decide)), read]

theorem applyEvent_of_finished {e : Event} {s : State} (hs : Finished s) (notReset : e ≠ .reset)
    (notLoad : ∀ bytes, e ≠ .loadProgram bytes) : Undisturbed finishedParts s (applyEvent e s).1 := by
  cases e with
  | step =>
    rw [applyEvent, stepEvent_of_next (step_of_finished hs)]
    exact undisturbed_refl _ s
  | reset => exact absurd rfl notReset
  | loadProgram bytes => exact absurd rfl (notLoad bytes)
  | forceClearWait =>
    have same : forceClearWait s = s := by rw [forceClearWait, State.setWaiting, ← hs.1]
    rw [applyEvent, same]
    exact undisturbed_refl _ s
  | tickTimers | setKey | clearKey =>
    exact applyEvent_undisturbed (by simp) (by simp) (by simp [hostParts]) s

/-- Settles O59: induction on the run; a finished state undisturbed stays finished. -/
theorem finishedProgramsStayFinished : Obligations.FinishedProgramsStayFinished := by
  intro es s hs allowed
  have h : Undisturbed finishedParts s (runEvents es s) := by
    refine runEvents_induction es (fun e he t ht => ?_) s (undisturbed_refl _ s)
    obtain ⟨notReset, notLoad⟩ := allowed e he
    exact ht.trans (applyEvent_of_finished (finished_of_undisturbed hs ht) notReset notLoad)
  exact ⟨finished_of_undisturbed hs h, h⟩

/-- A step, a tick or a key-up in a wait without a key writes no more than the timers. -/
theorem applyEvent_of_waiting {e : Event} {s : State} (ok : s.faulted = none) (wait : s.waiting = true)
    (key : s.pressed = none) (allowed : e = .step ∨ e = .tickTimers ∨ ∃ code, e = .clearKey code) :
    Undisturbed [.delay, .sound] s (applyEvent e s).1 := by
  rcases allowed with rfl | rfl | ⟨code, rfl⟩
  · have idle : step s = .next s := (step_of_waiting ok wait).trans (stepWaiting_of_none key)
    rw [applyEvent, stepEvent_of_next idle]
    exact undisturbed_refl _ s
  · exact applyEvent_undisturbed (by simp) (by simp) (by simp [hostParts]) s
  · have same : (applyEvent (.clearKey code) s).1 = s := by
      rcases Nat.lt_or_ge code 16 with h | h
      · rw [applyEvent, keyEvent_of_lt s _ h, clearKey_of_not_pressed s (by rw [key]; simp)]
      · rw [applyEvent, keyEvent_of_ge s _ h]
    rw [same]
    exact undisturbed_refl _ s

/-- Settles O60: induction on the run; the wait, its missing key and the latch are undisturbed. -/
theorem waitBlocksUntilAKeyComes : Obligations.WaitBlocksUntilAKeyComes := by
  intro es s ok wait key allowed
  refine runEvents_induction (P := Undisturbed [.delay, .sound] s) es (fun e he t ht => ?_) s
    (undisturbed_refl _ s)
  have kept := ht.2.2
  exact ht.trans (applyEvent_of_waiting ((kept .fault (by decide)).trans ok)
    ((kept .waiting (by decide)).trans wait) ((kept .pressed (by decide)).trans key) (allowed e he))

/-- Settles O54: the tick is the two countdowns. -/
theorem tickCountsDownBothTimers : Obligations.TickCountsDownBothTimers := by
  intro s
  obtain ⟨chain, -⟩ := applyEvent_hostEvent (e := .tickTimers) (by simp) (by simp) s
  exact ⟨countDown_toNat s.dt, countDown_toNat s.st, rfl, chain.keepsRegsBut, chain.keepsAllBut⟩

end Sys2Proof.Proofs
end

section
/-! The primitives of memory, `reset()` and `loadProgram()` (20_memory.md rules R61 to R66,
70_reset_and_hazards.md rules R280 to R287). -/

namespace Sys2Proof.Proofs

open Sys2Proof.Machine Sys2Proof.Laws Sys2Proof.Safety

/-! ### Access to memory -/

theorem keepsMemoryOutside_setMem {s : State} {m : Memory} {base len : Nat}
    (h : ∀ a, a < base ∨ base + len ≤ a → Memory.byte m a = Memory.byte s.mem a) :
    KeepsMemoryOutside base len s (s.setMem m) := fun a ha => memRead_congr (h a ha)

theorem setMem_keepsAllBut (s : State) (m : Memory) : KeepsAllBut [.memory] s (s.setMem m) :=
  fun p hp => keeps_setMem (keeps_refl s p) (fun e => hp (by simp [e])) m

/-- Settles O18: both primitives split on the bounds check, and a write changes its own byte. -/
theorem byteAccess : Obligations.ByteAccess := by
  intro a b s
  refine ⟨fun outside => ⟨memRead_of_ge outside s, memWrite_of_ge outside b s⟩, fun inside =>
    ⟨⟨_, memRead_of_lt inside s⟩, _, memWrite_of_lt inside b s, ?back, ?others, rfl, fun _ _ => rfl,
      setMem_keepsAllBut s _⟩⟩
  case back => rw [memRead_of_lt inside, setMem_mem, byte_put, if_pos rfl]
  case others =>
    refine keepsMemoryOutside_setMem fun c hc => ?_
    rw [byte_put, if_neg (by omega)]

/-- Settles O19: the bounds check of the second byte decides. -/
theorem wordReadIsBigEndian : Obligations.WordReadIsBigEndian := fun _ s =>
  ⟨fun inside => ⟨_, _, _, memRead_of_lt (by omega) s, memRead_of_lt inside s,
      memReadWord_of_lt inside s, wordOfBytes_toNat _ _⟩,
    fun outside => memReadWord_of_ge outside s⟩

/-- The bytes from `a` on, as a slice read gives them, are the bytes that single reads give. -/
theorem slice_getElem {a len k : Nat} (s : State) (fits : a + len ≤ 4096)
    (h : k < ((List.range len).map fun k => Memory.byte s.mem (a + k)).length) :
    memRead (a + k) s = .ok ((List.range len).map fun k => Memory.byte s.mem (a + k))[k] := by
  have hk : k < len := by simpa using h
  rw [memRead_of_lt (by omega)]
  simp

/-- Settles O20: the slice read splits on its range check, which the setting extends to the touching
range. -/
theorem sliceRead : Obligations.SliceRead := by
  refine ⟨fun touch a len s => ⟨fun faults => ?_, fun fits => ?_⟩, fun _ _ _ => rfl⟩
  · rw [memReadSliceWith_eq, if_pos faults]
  · have notFaults : ¬ (4096 < a + len ∨ (touch = true ∧ 0 < len ∧ a + len = 4096)) := by
      rintro (past | ⟨rfl, nonempty, touching⟩)
      · omega
      · obtain inside | ⟨-, impossible | empty⟩ := fits
        · omega
        · cases impossible
        · omega
    rw [memReadSliceWith_eq, if_neg notFaults]
    exact ⟨_, rfl, by simp, fun k => slice_getElem s (by omega)⟩

/-! ### reset() -/

theorem byte_resetEvent_font (s : State) {k : Nat} (h : k < 80) :
    ∃ b, Config.font[k]? = some b ∧ Memory.byte (resetEvent s).mem k = b := by
  have inFont : k < Config.font.length := by rwa [font_length]
  refine ⟨Config.font[k], List.getElem?_eq_getElem inFont, ?_⟩
  rw [resetEvent_mem]
  simpa using byte_putAll_inside Config.font s.mem 0 k inFont

theorem byte_resetEvent_of_ge (s : State) {a : Nat} (h : 80 ≤ a) :
    Memory.byte (resetEvent s).mem a = Memory.byte s.mem a := by
  rw [resetEvent_mem]
  exact byte_putAll_outside _ _ _ _ (.inr (by rw [font_length]; omega))

/-- Settles O10: one field of the state after another. -/
theorem resetLeaves : Obligations.ResetLeaves := by
  intro s
  refine ⟨fun r => by simp [State.reg], by simp, by simp, by simp, by simp, by simp, by simp, by simp,
    by simp, by simp, by simp, by simp, fun k hk => ?font, fun a ha => ?others⟩
  case font =>
    obtain ⟨b, listed, read⟩ := byte_resetEvent_font s hk
    exact ⟨b, listed, by rw [memRead_of_lt (by omega), read]⟩
  case others => exact memRead_congr (byte_resetEvent_of_ge s ha)

/-- Writing a byte equal to the reset contents over an empty list lists nothing. -/
theorem put_nil_of_resetByte {a : Nat} {v : Byte} (h : resetByte? a = some v) :
    Memory.put [] a v = [] := by
  rw [Memory.put, if_pos h, Memory.erase]

/-- Writing a stretch of the reset contents over an empty list lists nothing. -/
theorem putAll_nil_of_resetByte (bytes : List Byte) (a : Nat)
    (h : ∀ k, ∀ hk : k < bytes.length, resetByte? (a + k) = some bytes[k]) :
    Memory.putAll [] a bytes = [] := by
  induction bytes generalizing a with
  | nil => rfl
  | cons b bytes ih =>
    have first : resetByte? a = some b := h 0 (by simp)
    rw [Memory.putAll, put_nil_of_resetByte first]
    refine ih (a + 1) fun k hk => ?_
    have next := h (k + 1) (by simpa using hk)
    rwa [show a + (k + 1) = a + 1 + k by omega] at next

theorem putAll_nil_font : Memory.putAll [] 0 Config.font = [] :=
  putAll_nil_of_resetByte _ 0 fun k hk => by rw [Nat.zero_add]; exact List.getElem?_eq_getElem hk

theorem unlisted_of_ge {a : Nat} (h : 80 ≤ a) : Memory.unlisted a = Config.mem0 a := by
  have noFont : resetByte? a = none := List.getElem?_eq_none (by rw [font_length]; exact h)
  rw [Memory.unlisted, noFont]

theorem resetEvent_reset : resetEvent State.reset = State.reset := by
  have mem : Memory.putAll State.reset.mem 0 Config.font = [] := putAll_nil_font
  rw [resetEvent, mem]
  rfl

/-- Settles O11: the font is the reset content of its block, so a reset lists nothing. -/
theorem powerOnStateIsAResetState : Obligations.PowerOnStateIsAResetState := by
  refine ⟨resetEvent_reset, fun a ha => ?_, fun a above below => ?_⟩
  · obtain ⟨b, listed, read⟩ := byte_resetEvent_font State.reset ha
    rw [resetEvent_reset] at read
    exact ⟨b, listed, by rw [memRead_of_lt (by omega), read]⟩
  · rw [memRead_of_lt below]
    exact congrArg _ (unlisted_of_ge above)

/-- Settles O12: every field of the invariants is a constant of the reset state. -/
theorem resetStateSatisfiesTheInvariants : Obligations.ResetStateSatisfiesTheInvariants :=
  ⟨⟨rfl, by decide, by decide, by decide⟩, fun waiting => nomatch waiting⟩

/-! ### loadProgram() -/

/-- The state after a program that fits is loaded (R283). -/
abbrev loaded (bytes : List Byte) (s : State) : State := s.setMem (Memory.putAll s.mem 0x200 bytes)

theorem loadEvent_of_kept {bytes : List Byte} {s : State} (fits : bytes.length ≤ 3584)
    (kept : rewritesWaitInstruction s (loaded bytes s) = false) :
    loadEvent bytes s = (loaded bytes s, .ok) := by
  simp [loadEvent, loadProgram_of_fits s bytes fits, kept]

theorem loadEvent_of_rewritten {bytes : List Byte} {s : State} (fits : bytes.length ≤ 3584)
    (rewritten : rewritesWaitInstruction s (loaded bytes s) = true) :
    loadEvent bytes s = (s, .refused .loadRewritesWaitInstruction) := by
  simp [loadEvent, loadProgram_of_fits s bytes fits, rewritten]

/-- A load changes a byte exactly when it changes its read: no program reaches past memory. -/
theorem memRead_loaded_iff {bytes : List Byte} (s : State) (fits : bytes.length ≤ 3584) (a : Nat) :
    memRead a (loaded bytes s) = memRead a s ↔
      Memory.byte (loaded bytes s).mem a = Memory.byte s.mem a := by
  refine ⟨fun h => ?_, memRead_congr⟩
  rcases Nat.lt_or_ge a 4096 with inside | outside
  · rw [memRead_of_lt inside, memRead_of_lt inside] at h
    exact Except.ok.inj h
  · exact byte_putAll_outside _ _ _ _ (.inr (by omega))

/-- Settles O13: the length check decides, then the two bytes at `PC` in a wait. -/
theorem loadProgramRoundTrip : Obligations.LoadProgramRoundTrip := by
  refine fun bytes s => ⟨fun fits => ⟨loaded bytes s, loadProgram_of_fits s bytes fits,
    fun k hk => ?back, ?others, rfl, fun _ _ => rfl, setMem_keepsAllBut s _, fun run => ?running,
    fun wait same => ?kept, fun wait changed => ?rewritten⟩,
    fun long => ⟨loadProgram_of_long s bytes long, ?long⟩⟩
  case back => rw [memRead_of_lt (by omega), setMem_mem, byte_putAll_inside bytes s.mem 0x200 k hk]
  case others => exact keepsMemoryOutside_setMem fun a => byte_putAll_outside bytes s.mem 0x200 a
  case running => exact loadEvent_of_kept fits (by simp [rewritesWaitInstruction, run])
  case kept =>
    rw [memRead_loaded_iff s fits, memRead_loaded_iff s fits] at same
    refine loadEvent_of_kept fits (Bool.eq_false_iff.2 fun rewritten => ?_)
    exact ((rewritesWaitInstruction_iff s _).1 rewritten).2 same
  case rewritten =>
    rw [memRead_loaded_iff s fits, memRead_loaded_iff s fits] at changed
    exact loadEvent_of_rewritten fits ((rewritesWaitInstruction_iff s _).2 ⟨wait, changed⟩)
  case long => rw [applyEvent, loadEvent, loadProgram_of_long s bytes long]

/-! ### Loading before and after a reset -/

/-- Which bytes a bulk write lists: those in its range that the reset contents do not give. -/
theorem listed?_putAll (bytes : List Byte) (m : Memory) (a b : Nat) :
    Memory.listed? (Memory.putAll m a bytes) b =
      if h : a ≤ b ∧ b - a < bytes.length then
        (if resetByte? b = some (bytes[b - a]'h.2) then none else some (bytes[b - a]'h.2))
      else Memory.listed? m b := by
  induction bytes generalizing m a with
  | nil => simp [Memory.putAll]
  | cons c bytes ih =>
    rw [Memory.putAll, ih, listed?_put]
    by_cases first : b = a
    · subst first
      rw [dif_neg (by omega)]
      simp
    by_cases later : a + 1 ≤ b ∧ b - (a + 1) < bytes.length
    · have inRange : a ≤ b ∧ b - a < (c :: bytes).length := by
        simp only [List.length_cons]; omega
      have index : b - a = (b - (a + 1)) + 1 := by omega
      rw [dif_pos later, dif_pos inRange]
      simp only [index, List.getElem_cons_succ]
    · rw [dif_neg later, if_neg first, dif_neg]
      simp only [List.length_cons]
      omega

/-- Bulk writes to stretches of memory that lie apart commute, as data. -/
theorem putAll_comm {m : Memory} (canonical : Memory.wf m = true) {a b : Nat} {front back : List Byte}
    (apart : a + front.length ≤ b) (inside : b + back.length ≤ 4096) :
    Memory.putAll (Memory.putAll m a front) b back = Memory.putAll (Memory.putAll m b back) a front := by
  have frontFits : a + front.length ≤ memSize := le_trans apart (by unfold memSize; omega)
  refine eq_of_listed? (lo := 0) (wf_putAll _ inside (wf_putAll _ frontFits canonical))
    (wf_putAll _ frontFits (wf_putAll _ inside canonical)) fun c => ?_
  simp only [listed?_putAll]
  by_cases inBack : b ≤ c ∧ c - b < back.length
  · rw [dif_pos inBack, dif_neg (by omega), dif_pos inBack]
  · rw [dif_neg inBack, dif_neg inBack]

/-- Settles O14: the font and a program lie apart, so their writes commute. -/
theorem resetAndLoadCommute : Obligations.ResetAndLoadCommute := by
  intro bytes s t canonical e
  rcases Nat.lt_or_ge 3584 bytes.length with long | fits
  · cases (loadProgram_of_long s bytes long).symm.trans e
  cases (loadProgram_of_fits s bytes fits).symm.trans e
  rw [loadProgram_of_fits _ bytes fits, resetEvent_mem,
    putAll_comm canonical (by rw [font_length]; decide) (by omega)]
  simp only [resetEvent, State.setMem]

/-! ### The delay timer -/

/-- Settles O50: the equations of the two instructions, and the countdown of the tick. -/
theorem delayTimerBehaviour : Obligations.DelayTimerBehaviour :=
  ⟨fun x s => ⟨_, _, exec_ldDtVx x s, rfl, exec_ldVxDt x s, reg_setReg_self s x s.dt⟩,
    fun s => ⟨countDown_toNat s.dt, rfl, resetEvent_dt s⟩⟩

end Sys2Proof.Proofs
end

section
/-! The sound timer is never read (10_state.md rule R27): two states that differ in it alone run
alike. -/

namespace Sys2Proof.Proofs

open Sys2Proof.Machine Sys2Proof.Laws Sys2Proof.Safety

/-- A change of the state an outcome reaches, if it reaches one. -/
def mapNext (g : State → State) : Result → Result
  | .next s => .next (g s)
  | .fault f => .fault f
  | .refused r => .refused r

section
variable (b : Byte) (s : State)

theorem writeBytes_setSt (bytes : List Byte) (a : Nat) :
    writeBytes a bytes (s.setSt b) = ((writeBytes a bytes s).1.setSt b, (writeBytes a bytes s).2) := by
  rw [writeBytes_eq, writeBytes_eq]; rfl

theorem readRegs_setSt (rs : List Nibble) (a : Nat) :
    readRegs a rs (s.setSt b) = ((readRegs a rs s).1.setSt b, (readRegs a rs s).2) := by
  induction rs generalizing a s with
  | nil => rfl
  | cons r rs ih =>
    rcases Nat.lt_or_ge a 4096 with inside | outside
    · rw [readRegs, readRegs, memRead_of_lt inside, memRead_of_lt inside]
      exact ih (s.setReg r (Memory.byte s.mem a)) (a + 1)
    · rw [readRegs, readRegs, memRead_of_ge outside, memRead_of_ge outside]

theorem finishTransfer_setSt (r : State × Option Fault) :
    finishTransfer (r.1.setSt b, r.2) = mapNext (·.setSt b) (finishTransfer r) := by
  obtain ⟨t, _ | f⟩ := r <;> rfl

/-- Every instruction but LD ST, Vx carries `ST` along: it neither reads nor writes it. -/
theorem exec_setSt {i : Instr} (notLdSt : ∀ x, i ≠ .ldStVx x) :
    exec i (s.setSt b) = mapNext (·.setSt b) (exec i s) := by
  cases i with
  | ldStVx x => exact absurd rfl (notLdSt x)
  | ret =>
    rcases Nat.eq_zero_or_pos s.sp.val with empty | pos
    · rw [exec_ret_of_empty empty, exec_ret_of_empty (s := s.setSt b) empty]; rfl
    · rw [exec_ret_of_pos pos, exec_ret_of_pos (s := s.setSt b) pos]; rfl
  | call nnn =>
    rcases Nat.lt_or_ge s.sp.val 16 with room | full
    · rw [exec_call_of_lt nnn room, exec_call_of_lt (s := s.setSt b) nnn room]; rfl
    · have full : s.sp.val = 16 := by omega
      rw [exec_call_of_full nnn full, exec_call_of_full (s := s.setSt b) nnn full]; rfl
  | drw x y n =>
    rcases Nat.lt_or_ge 4096 (s.i.toNat + n.val) with past | fits
    · rw [exec_drw_of_gt x y n past, exec_drw_of_gt (s := s.setSt b) x y n past]; rfl
    · rw [exec_drw_of_le x y n fits, exec_drw_of_le (s := s.setSt b) x y n fits]; rfl
  | ldVxK x =>
    cases key : s.pressed with
    | some k => rw [exec_ldVxK_of_some x key, exec_ldVxK_of_some (s := s.setSt b) x key]; rfl
    | none => rw [exec_ldVxK_of_none x key, exec_ldVxK_of_none (s := s.setSt b) x key]; rfl
  | ldB x =>
    rw [exec_ldB, exec_ldB, writeBytes_setSt]
    exact finishTransfer_setSt b _
  | ldMemVx x =>
    rw [exec_ldMemVx, exec_ldMemVx, writeBytes_setSt]
    exact finishTransfer_setSt b _
  | ldVxMem x =>
    rw [exec_ldVxMem, exec_ldVxMem, readRegs_setSt]
    exact finishTransfer_setSt b _
  | sys | cls | jp | seByte | sneByte | seReg | ldByte | addByte | ldReg | orReg | andReg | xorReg
  | addReg | subReg | shr | subn | shl | sneReg | ldI | jpV0 | rnd | skp | sknp | ldVxDt | ldDtVx | addI
  | ldF => rfl

/-- Two states that differ in `ST` alone have next states that do. -/
theorem exec_setSt_apart {i : Instr} {s t : State} (e : exec i s = .next t) :
    ∃ u, exec i (s.setSt b) = .next u ∧ u.setSt 0#8 = t.setSt 0#8 := by
  by_cases ldSt : ∃ x, i = .ldStVx x
  · obtain ⟨x, rfl⟩ := ldSt
    cases e.symm.trans (exec_ldStVx x s)
    exact ⟨_, exec_ldStVx x (s.setSt b), rfl⟩
  · refine ⟨t.setSt b, ?_, rfl⟩
    rw [exec_setSt b s (not_exists.1 ldSt), e]
    rfl

/-- A step reports the same whatever `ST` holds. -/
theorem stepEvent_setSt : (stepEvent (s.setSt b)).2 = (stepEvent s).2 := by
  cases latch : s.faulted with
  | some f => rw [stepEvent_of_faulted latch, stepEvent_of_faulted (s := s.setSt b) latch]
  | none =>
    obtain ⟨t, e, h⟩ := step_eq_next latch
    rw [stepEvent_of_next e]
    cases h with
    | idles wait key =>
      have e' := (step_of_waiting (s := s.setSt b) latch wait).trans (stepWaiting_of_none key)
      rw [stepEvent_of_next e']
      rfl
    | endsWait wait key =>
      have e' := (step_of_waiting (s := s.setSt b) latch wait).trans (stepWaiting_of_some key)
      rw [stepEvent_of_next e']
      rfl
    | fetchFaults run fetched =>
      rw [stepEvent_of_next (step_of_fetch_error (s := s.setSt b) ⟨run, latch⟩ fetched)]
      rfl
    | illegal run fetched decoded =>
      rw [stepEvent_of_next (step_of_unrecognized (s := s.setSt b) ⟨run, latch⟩ fetched decoded)]
      rfl
    | runs run fetched decoded executed =>
      obtain ⟨u, eu, same⟩ := exec_setSt_apart b executed
      rw [stepEvent_of_next ((step_of_instr (s := s.setSt b) ⟨run, latch⟩ fetched decoded).trans eu)]
      have latches : u.faulted = t.faulted := by simpa using congrArg State.faulted same
      simp only [reportOf, latches]

theorem keyEvent_report (event : Nibble → State → State) (code : Nat) (s t : State) :
    (keyEvent event code s).2 = (keyEvent event code t).2 := by
  rcases Nat.lt_or_ge code 16 with h | h
  · rw [keyEvent_of_lt s _ h, keyEvent_of_lt t _ h]
  · rw [keyEvent_of_ge s _ h, keyEvent_of_ge t _ h]

theorem loadEvent_setSt (bytes : List Byte) :
    (loadEvent bytes (s.setSt b)).2 = (loadEvent bytes s).2 := by
  rcases loadEvent_cases s bytes with ⟨fits, kept, e⟩ | ⟨fits, rewritten, e⟩ | ⟨long, e⟩
  · rw [e, loadEvent_of_kept (s := s.setSt b) fits kept]
  · rw [e, loadEvent_of_rewritten (s := s.setSt b) fits rewritten]
  · rw [e, loadEvent, loadProgram_of_long _ bytes long]

theorem applyEvent_setSt (e : Event) : (applyEvent e (s.setSt b)).2 = (applyEvent e s).2 := by
  cases e with
  | step => exact stepEvent_setSt b s
  | setKey code => exact keyEvent_report setKey code _ _
  | clearKey code => exact keyEvent_report clearKey code _ _
  | loadProgram bytes => exact loadEvent_setSt b s bytes
  | tickTimers | forceClearWait | reset => rfl

end

theorem soundActive_iff (s : State) : soundActive s = true ↔ 0 < s.st.toNat := decide_eq_true_iff

/-- Settles O51: the writers of `ST`, the reports of the events, and the two runs of an instruction. -/
theorem soundTimerIsWriteOnly : Obligations.SoundTimerIsWriteOnly :=
  ⟨fun x s => ⟨_, exec_ldStVx x s, rfl⟩,
    fun s => ⟨countDown_toNat s.st, resetEvent_st s, soundActive_iff s⟩,
    fun s b => ⟨rfl, rfl, applyEvent_setSt b s⟩,
    fun _ _ _ b => exec_setSt_apart b⟩

end Sys2Proof.Proofs
end

section
/-! The multi-byte transfers and the stack: what they store, what they load, and where they stop
(43_index_memory.md rules R183 to R186, 41_control_flow.md rules R141, R143). -/

namespace Sys2Proof.Proofs

open Sys2Proof.Machine Sys2Proof.Laws Sys2Proof.Safety

/-! ### Storing -/

theorem finishTransfer_writeBytes_of_le {a : Nat} {bytes : List Byte} (s : State)
    (fits : a + bytes.length ≤ 4096) : finishTransfer (writeBytes a bytes s) =
      .next ((s.setMem (Memory.putAll s.mem a bytes)).advance 2) := by
  rw [finishTransfer_eq, writeBytes_eq, if_pos (.inr fits), List.take_of_length_le (by omega)]

theorem finishTransfer_writeBytes_of_gt {a : Nat} {bytes : List Byte} (s : State) (start : a < 4096)
    (past : 4096 < a + bytes.length) : finishTransfer (writeBytes a bytes s) =
      .next (takeFault (.addressError 0x1000)
        (s.setMem (Memory.putAll s.mem a (bytes.take (4096 - a))))) := by
  have some_bytes : ¬ (bytes = [] ∨ a + bytes.length ≤ 4096) := by
    rintro (rfl | fits)
    · simp only [List.length_nil] at past; omega
    · omega
  rw [finishTransfer_eq, writeBytes_eq, if_neg some_bytes, Nat.max_eq_right (by omega)]

/-- Byte `k` of a stored list reads back, in any state with the memory the store leaves. -/
theorem memRead_putAll {s t : State} {a k : Nat} {bytes : List Byte} (hk : k < bytes.length)
    (inside : a + k < 4096) (mem : t.mem = Memory.putAll s.mem a bytes) :
    memRead (a + k) t = .ok bytes[k] := by
  rw [memRead_of_lt inside, mem, byte_putAll_inside bytes s.mem a k hk]

/-- So does byte `k` of a list stored as far as memory reaches. -/
theorem memRead_putAll_take {s t : State} {a k : Nat} {bytes : List Byte} (hk : k < bytes.length)
    (inside : a + k < 4096) (mem : t.mem = Memory.putAll s.mem a (bytes.take (4096 - a))) :
    memRead (a + k) t = .ok bytes[k] := by
  have stored : k < (bytes.take (4096 - a)).length := by
    rw [List.length_take]; omega
  rw [memRead_putAll stored inside mem, List.getElem_take]

theorem keepsMemoryOutside_putAll_take {s t : State} {a len j : Nat} {bytes : List Byte}
    (length : bytes.length = len) (mem : t.mem = Memory.putAll s.mem a (bytes.take j)) :
    KeepsMemoryOutside a len s t := by
  refine fun c hc => memRead_congr ?_
  rw [mem]
  exact byte_putAll_outside _ _ _ _ (by rw [List.length_take]; omega)

theorem keepsMemoryOutside_putAll {s t : State} {a len : Nat} {bytes : List Byte}
    (length : bytes.length = len) (mem : t.mem = Memory.putAll s.mem a bytes) :
    KeepsMemoryOutside a len s t :=
  keepsMemoryOutside_putAll_take (j := bytes.length) length (by rw [List.take_length, mem])

/-- A store that fits writes memory and `PC` only. -/
theorem store_keepsAllBut (s : State) (m : Memory) (k : Nat) :
    KeepsAllBut [.memory] s ((s.setMem m).advance k) :=
  fun p hp => keeps_setPc (setMem_keepsAllBut s m p hp) _

/-- A store that is cut short writes memory and the latch only. -/
theorem cutStore_keepsAllBut (s : State) (m : Memory) (f : Fault) :
    KeepsAllBut [.memory, .fault] s (takeFault f (s.setMem m)) :=
  fun p hp => by
    rw [List.mem_cons, List.mem_singleton, not_or] at hp
    exact keeps_takeFault (keeps_setMem (keeps_refl s p) hp.1 m) hp.2 f

/-! ### The decimal digits -/

/-- The digits of a byte fit their bytes (R183). -/
theorem bcdDigits_toNat (b : Byte) : (BitVec.ofNat 8 (b.toNat / 100)).toNat = b.toNat / 100 ∧
    (BitVec.ofNat 8 (b.toNat / 10 % 10)).toNat = b.toNat / 10 % 10 ∧
    (BitVec.ofNat 8 (b.toNat % 10)).toNat = b.toNat % 10 := by
  have := b.isLt
  simp only [BitVec.toNat_ofNat]
  omega

theorem bcdDigits_length (b : Byte) : (bcdDigits b).length = 3 := rfl

theorem exec_ldB_of_le {s : State} (x : Nibble) (fits : s.i.toNat + 2 ≤ 0xFFF) : exec (.ldB x) s =
    .next ((s.setMem (Memory.putAll s.mem s.i.toNat (bcdDigits (s.reg x)))).advance 2) :=
  finishTransfer_writeBytes_of_le s (a := s.i.toNat) (by rw [bcdDigits_length]; omega)

theorem exec_ldB_of_gt {s : State} (x : Nibble) (start : s.i.toNat < 4096)
    (past : 0xFFF < s.i.toNat + 2) : exec (.ldB x) s = .next (takeFault (.addressError 0x1000)
      (s.setMem (Memory.putAll s.mem s.i.toNat ((bcdDigits (s.reg x)).take (4096 - s.i.toNat))))) :=
  finishTransfer_writeBytes_of_gt s (a := s.i.toNat) start (by rw [bcdDigits_length]; omega)

/-- Settles O39: the store of the three digits, whole or cut at the top of memory. -/
theorem bcdStore : Obligations.BcdStore := by
  intro x s
  obtain ⟨hundreds, tens, ones⟩ := bcdDigits_toNat (s.reg x)
  have length := bcdDigits_length (s.reg x)
  refine ⟨readsAs_packX 0xF x 0x33#8 rfl rfl, fun fits => ?fits,
    fun start past => ?cut⟩
  case fits =>
    have digit (k : Nat) (hk : k < 3) := memRead_putAll (s := s) (a := s.i.toNat)
      (t := (s.setMem (Memory.putAll s.mem s.i.toNat (bcdDigits (s.reg x)))).advance 2)
      (length.symm ▸ hk) (by omega) rfl
    refine ⟨_, _, _, _, exec_ldB_of_le x fits, digit 0 (by decide), digit 1 (by decide),
      digit 2 (by decide), tens.trans_le (by omega), ones.trans_le (by omega), ?_,
      keepsMemoryOutside_putAll length rfl, movedOn_advance 2 rfl, fun _ _ => rfl,
      store_keepsAllBut s _ 2⟩
    simp only [bcdDigits, List.getElem_cons_zero, List.getElem_cons_succ, hundreds, tens, ones]
    omega
  case cut =>
    have digit (k : Nat) (hk : k < 3) (inside : s.i.toNat + k < 4096) :=
      memRead_putAll_take (s := s) (a := s.i.toNat) (t := takeFault (.addressError 0x1000)
        (s.setMem (Memory.putAll s.mem s.i.toNat ((bcdDigits (s.reg x)).take (4096 - s.i.toNat)))))
      (length.symm ▸ hk) inside rfl
    refine ⟨_, exec_ldB_of_gt x start past, rfl, rfl, ⟨_, digit 0 (by decide) start, hundreds⟩,
      fun at_FFE => ⟨_, ?_, tens⟩, keepsMemoryOutside_putAll_take length rfl, fun _ _ => rfl,
      cutStore_keepsAllBut s _ _⟩
    rw [← show s.i.toNat + 1 = 0xFFF by omega]
    exact digit 1 (by decide) (by omega)

/-! ### The register dump -/

theorem dumpBytes_getElem_val (x k : Nibble) (s : State) (h : k.val < (dumpBytes x s).length) :
    (dumpBytes x s)[k.val] = s.reg k := by
  rw [dumpBytes_getElem]
  exact congrArg s.reg (Fin.ext (Nat.mod_eq_of_lt k.isLt))

theorem exec_ldMemVx_of_le {s : State} {x : Nibble} (fits : s.i.toNat + x.val ≤ 0xFFF) :
    exec (.ldMemVx x) s =
      .next ((s.setMem (Memory.putAll s.mem s.i.toNat (dumpBytes x s))).advance 2) :=
  finishTransfer_writeBytes_of_le s (a := s.i.toNat) (by rw [dumpBytes_length]; omega)

theorem exec_ldMemVx_of_gt {s : State} {x : Nibble} (start : s.i.toNat < 4096)
    (past : 0xFFF < s.i.toNat + x.val) :
    exec (.ldMemVx x) s = .next (takeFault (.addressError 0x1000)
      (s.setMem (Memory.putAll s.mem s.i.toNat ((dumpBytes x s).take (4096 - s.i.toNat))))) :=
  finishTransfer_writeBytes_of_gt s (a := s.i.toNat) start (by rw [dumpBytes_length]; omega)

/-- Settles O40: the store of the registers, whole or cut at the top of memory. -/
theorem registerDump : Obligations.RegisterDump := by
  intro x s
  have length := dumpBytes_length x s
  refine ⟨readsAs_packX 0xF x 0x55#8 rfl rfl, fun fits => ?fits,
    fun start past => ?cut⟩
  case fits =>
    refine ⟨_, exec_ldMemVx_of_le fits, fun k hk => ?_, keepsMemoryOutside_putAll length rfl,
      movedOn_advance 2 rfl, fun _ _ => rfl, store_keepsAllBut s _ 2⟩
    have hk := Fin.le_def.1 hk
    rw [memRead_putAll (by omega) (by omega) rfl, dumpBytes_getElem_val]
  case cut =>
    refine ⟨_, exec_ldMemVx_of_gt start past, rfl, rfl, fun k hk => ?_,
      keepsMemoryOutside_putAll_take length rfl, fun _ _ => rfl, cutStore_keepsAllBut s _ _⟩
    rw [memRead_putAll_take (by omega) (by omega) rfl, dumpBytes_getElem_val]

/-! ### Loading -/

/-- Settles O41: the registers the load reaches, and its end. -/
theorem registerLoad : Obligations.RegisterLoad := by
  intro x s
  obtain ⟨regs, fault⟩ := readRegs_regsUpTo s.i.toNat x s
  have parts {t : State} (e : exec (.ldVxMem x) s = .next t) : KeepsAllBut [.fault] s t :=
    (exec_frame e).2
  refine ⟨readsAs_packX 0xF x 0x65#8 rfl rfl, fun fits => ?fits,
    fun start past => ?cut⟩
  case fits =>
    have e : exec (.ldVxMem x) s = .next ((readRegs s.i.toNat (regsUpTo x) s).1.advance 2) := by
      rw [exec_ldVxMem, finishTransfer_eq, fault, if_pos (by omega)]
    obtain ⟨v, fields⟩ := readRegs_fields (regsUpTo x) s.i.toNat s
    refine ⟨_, e, fun k hk => ?_, fun k hk => ?_, movedOn_advance 2 (by rw [fields]),
      keepsAllBut_of_latch (parts e) (by rw [advance_faulted, fields]) (by simp)⟩
    · have := Fin.le_def.1 hk
      rw [reg_advance, regs k, if_pos ⟨hk, by omega⟩, memRead_of_lt (by omega)]
    · rw [reg_advance, regs k, if_neg fun h => absurd h.1 (Fin.not_le.2 hk)]
  case cut =>
    have e : exec (.ldVxMem x) s =
        .next (takeFault (.addressError 0x1000) (readRegs s.i.toNat (regsUpTo x) s).1) := by
      rw [exec_ldVxMem, finishTransfer_eq, fault, if_neg (by omega), Nat.max_eq_right (by omega)]
    obtain ⟨v, fields⟩ := readRegs_fields (regsUpTo x) s.i.toNat s
    refine ⟨_, e, rfl, by rw [takeFault_pc, fields], fun k hk => ?_, fun k hk => ?_, parts e⟩
    · rw [reg_takeFault, regs k, if_pos ⟨Fin.le_def.2 (by omega), by omega⟩, memRead_of_lt (by omega)]
    · rw [reg_takeFault, regs k, if_neg (by omega)]

/-! ### The call stack -/

/-- RET in the state after a CALL pops what CALL pushed. -/
theorem exec_ret_after_push {s t : State} {w : Word} (room : s.sp.val < 16)
    (sp : t.sp.val = s.sp.val + 1) (stack : t.stack = s.stack.set s.sp.val w room) :
    exec .ret t = .next ((t.setStack s.sp t.stack).setPc w) := by
  have count : t.sp.val - 1 = s.sp.val := by omega
  rw [exec_ret_of_pos (by omega)]
  simp only [count, stack, Vector.getElem_set_self]

/-- Settles O26: the pushed slot is the one RET reads. -/
theorem callThenReturn : Obligations.CallThenReturn := by
  intro nnn s room
  have called := exec_call_of_lt nnn room
  refine ⟨_, _, called, exec_ret_after_push room rfl rfl, pcPlus_toNat s 2, rfl, fun k hk => ?slots,
    fun r hr => rfl, ?frame⟩
  case slots => simp [Ne.symm hk]
  case frame =>
    intro p hp
    have notStack : p ≠ .callStack := fun e => hp (by simp [e])
    exact keeps_setPc (keeps_setStack (keeps_setPc (keeps_setStack (keeps_refl s p) notStack _ _) _)
      notStack _ _) _

end Sys2Proof.Proofs
end

section
/-! Sprites: the pixels a draw inverts, its collision, and DRW (44_display.md rules R200 to R204). -/

namespace Sys2Proof.Proofs

open Sys2Proof.Machine Sys2Proof.Laws Sys2Proof.Safety

/-! ### The bits of a row and of a sprite -/

theorem getLsbD_iff (v : Byte) (k : Nat) : v.getLsbD k = true ↔ (v.toNat >>> k) % 2 = 1 := by
  rw [BitVec.getLsbD, Nat.testBit_eq_decide_div_mod_eq, decide_eq_true_iff, Nat.shiftRight_eq_div_pow]

/-- A sprite row drawn from column `x0` on has a 1 bit in column `px` (R202). -/
def RowBit (x0 : Nat) (row : Byte) (px : Fin 64) : Prop :=
  ∃ b, b < 8 ∧ (row.toNat >>> (7 - b)) % 2 = 1 ∧ px.val = (x0 + b) % 64

theorem rowBit_iff_rowBits (x0 : Nat) (row : Byte) (px : Fin 64) : RowBit x0 row px ↔
    ∃ k, ∃ h : k < (rowBits row).length, (rowBits row)[k] = true ∧ px.val = (x0 + (0 + k)) % 64 := by
  simp only [RowBit, rowBits_getElem, getLsbD_iff, rowBits_length, exists_prop, Nat.zero_add]

theorem not_spriteBit_nil (x0 y0 : Nat) (px : Fin 64) (py : Fin 32) : ¬ SpriteBit x0 y0 [] px py := by
  rintro ⟨r, b, h, -⟩
  exact absurd h (Nat.not_lt_zero r)

/-- A bit of a sprite is a bit of its first row, or of the rest one row further down. -/
theorem spriteBit_cons (x0 y0 : Nat) (row : Byte) (rows : List Byte) (px : Fin 64) (py : Fin 32) :
    SpriteBit x0 y0 (row :: rows) px py ↔
      (py = Fin.ofNat 32 y0 ∧ RowBit x0 row px) ∨ SpriteBit x0 (y0 + 1) rows px py := by
  constructor
  · rintro ⟨r, b, h, hb, bit, hx, hy⟩
    cases r with
    | zero => exact .inl ⟨Fin.ext hy, b, hb, bit, hx⟩
    | succ r =>
      exact .inr ⟨r, b, Nat.lt_of_succ_lt_succ h, hb, bit, hx, by rw [hy]; congr 1; omega⟩
  · rintro (⟨rfl, b, hb, bit, hx⟩ | ⟨r, b, h, hb, bit, hx, hy⟩)
    · exact ⟨0, b, by simp, hb, bit, hx, rfl⟩
    · exact ⟨r + 1, b, Nat.succ_lt_succ h, hb, bit, hx, by rw [hy]; congr 1; omega⟩

/-- Up to 31 further rows do not wrap onto the row above them. -/
theorem spriteBit_below {x0 y0 : Nat} {rows : List Byte} {px : Fin 64} {py : Fin 32}
    (short : rows.length < 32) (h : SpriteBit x0 (y0 + 1) rows px py) : py ≠ Fin.ofNat 32 y0 := by
  rintro rfl
  obtain ⟨r, b, hr, -, -, -, hy⟩ := h
  simp only [Fin.ofNat] at hy
  omega

theorem exists_getLsbD_iff (row : Byte) : (∃ b, b < 8 ∧ row.getLsbD (7 - b) = true) ↔ row ≠ 0#8 := by
  constructor
  · rintro ⟨b, -, bit⟩ rfl
    simp at bit
  · intro nonzero
    by_contra none
    refine nonzero (BitVec.eq_of_getLsbD_eq fun i hi => ?_)
    have off := not_exists.1 none (7 - i)
    rw [show 7 - (7 - i) = i by omega] at off
    simpa [show 7 - i < 8 by omega] using off

/-- A sprite has a 1 bit exactly when it has a row that is not 0. -/
theorem exists_spriteBit_iff (x0 y0 : Nat) (rows : List Byte) :
    (∃ px py, SpriteBit x0 y0 rows px py) ↔ ∃ row ∈ rows, row ≠ 0#8 := by
  constructor
  · rintro ⟨px, py, r, b, h, hb, bit, -⟩
    exact ⟨rows[r], List.getElem_mem h, (exists_getLsbD_iff _).1 ⟨b, hb, (getLsbD_iff _ _).2 bit⟩⟩
  · rintro ⟨row, mem, nonzero⟩
    obtain ⟨r, h, rfl⟩ := List.getElem_of_mem mem
    obtain ⟨b, hb, bit⟩ := (exists_getLsbD_iff _).2 nonzero
    exact ⟨Fin.ofNat 64 (x0 + b), Fin.ofNat 32 (y0 + r), r, b, h, hb, (getLsbD_iff _ _).1 bit, rfl, rfl⟩

/-! ### Drawing -/

theorem drawRow_pixel (x0 : Nat) (row : Byte) (py : Fin 32) (dc : Display × Bool) (qx : Fin 64)
    (qy : Fin 32) : pixel (drawBits x0 py 0 (rowBits row) dc).1 qx qy = true ↔
      (pixel dc.1 qx qy = true ↔ ¬ (qy = py ∧ RowBit x0 row qx)) := by
  rw [drawBits_pixel _ _ _ _ _ (by simp), rowBit_iff_rowBits]

theorem drawRow_flag (x0 : Nat) (row : Byte) (py : Fin 32) (dc : Display × Bool) :
    (drawBits x0 py 0 (rowBits row) dc).2 = true ↔
      dc.2 = true ∨ ∃ px, pixel dc.1 px py = true ∧ RowBit x0 row px := by
  rw [drawBits_flag _ _ _ _ _ (by simp)]
  simp only [rowBit_iff_rowBits]
  refine or_congr Iff.rfl ⟨?_, ?_⟩
  · rintro ⟨k, h, bit, lit⟩
    exact ⟨_, lit, k, h, bit, rfl⟩
  · rintro ⟨px, lit, k, h, bit, hx⟩
    have column : Fin.ofNat 64 (x0 + (0 + k)) = px := Fin.ext hx.symm
    exact ⟨k, h, bit, column ▸ lit⟩

/-- Up to 32 rows, exactly the pixels under a 1 bit of the sprite are inverted (R202). -/
theorem drawRows_pixel (x0 y0 : Nat) (rows : List Byte) (r : Nat) (dc : Display × Bool)
    (short : rows.length ≤ 32) (qx : Fin 64) (qy : Fin 32) :
    pixel (drawRows x0 y0 r rows dc).1 qx qy = true ↔
      (pixel dc.1 qx qy = true ↔ ¬ SpriteBit x0 (y0 + r) rows qx qy) := by
  induction rows generalizing r dc with
  | nil => simp [drawRows, not_spriteBit_nil]
  | cons row rows ih =>
    rw [List.length_cons] at short
    have apart : SpriteBit x0 (y0 + r + 1) rows qx qy → qy ≠ Fin.ofNat 32 (y0 + r) :=
      spriteBit_below (by omega)
    rw [drawRows, ih _ _ (by omega), drawRow_pixel, spriteBit_cons, ← Nat.add_assoc]
    tauto

/-- Up to 32 rows, a draw collides exactly when a lit pixel meets a 1 bit of the sprite (R202). -/
theorem drawRows_flag (x0 y0 : Nat) (rows : List Byte) (r : Nat) (dc : Display × Bool)
    (short : rows.length ≤ 32) : (drawRows x0 y0 r rows dc).2 = true ↔
      dc.2 = true ∨ ∃ px py, pixel dc.1 px py = true ∧ SpriteBit x0 (y0 + r) rows px py := by
  induction rows generalizing r dc with
  | nil => simp [drawRows, not_spriteBit_nil]
  | cons row rows ih =>
    rw [List.length_cons] at short
    have unchanged {px py} (h : SpriteBit x0 (y0 + r + 1) rows px py) :
        pixel (drawBits x0 (Fin.ofNat 32 (y0 + r)) 0 (rowBits row) dc).1 px py = true ↔
          pixel dc.1 px py = true := by
      have := spriteBit_below (by omega) h
      rw [drawRow_pixel]
      tauto
    rw [drawRows, ih _ _ (by omega), drawRow_flag, ← Nat.add_assoc, or_assoc]
    refine or_congr Iff.rfl ⟨?_, ?_⟩
    · rintro (⟨px, lit, bit⟩ | ⟨px, py, lit, bit⟩)
      · exact ⟨px, _, lit, (spriteBit_cons ..).2 (.inl ⟨rfl, bit⟩)⟩
      · exact ⟨px, py, (unchanged bit).1 lit, (spriteBit_cons ..).2 (.inr bit)⟩
    · rintro ⟨px, py, lit, bit⟩
      rcases (spriteBit_cons ..).1 bit with ⟨rfl, first⟩ | later
      · exact .inl ⟨px, lit, first⟩
      · exact .inr ⟨px, py, (unchanged later).2 lit, later⟩

section
variable {rows : List Byte} (short : rows.length ≤ 32) (d : Display) (x0 y0 : Nat)
include short

theorem drawSprite_pixel (px : Fin 64) (py : Fin 32) :
    pixel (drawSprite d x0 y0 rows).1 px py = true ↔
      (pixel d px py = true ↔ ¬ SpriteBit x0 y0 rows px py) :=
  drawRows_pixel x0 y0 rows 0 (d, false) short px py

theorem drawSprite_flag : (drawSprite d x0 y0 rows).2 = true ↔
    ∃ px py, pixel d px py = true ∧ SpriteBit x0 y0 rows px py := by
  rw [drawSprite, drawRows_flag x0 y0 rows 0 (d, false) short]
  simp

/-- The second of two equal draws collides exactly where a 1 bit met an unlit pixel in the first. -/
theorem drawSprite_second_flag :
    (drawSprite (drawSprite d x0 y0 rows).1 x0 y0 rows).2 = true ↔
      ∃ px py, ¬ pixel d px py = true ∧ SpriteBit x0 y0 rows px py := by
  rw [drawSprite_flag short]
  refine exists_congr fun px => exists_congr fun py => ?_
  rw [drawSprite_pixel short]
  tauto

theorem drawSprite_twice : (drawSprite (drawSprite d x0 y0 rows).1 x0 y0 rows).1 = d := by
  refine display_ext fun px py => Bool.eq_iff_iff.2 ?_
  rw [drawSprite_pixel short, drawSprite_pixel short]
  tauto

end

/-- Settles O44: induction on the rows, each of which visits every pixel of its display row once. -/
theorem drawSpriteXorsEachPixel : Obligations.DrawSpriteXorsEachPixel := by
  refine fun d x0 y0 rows short => ⟨fun px py => ?_, drawSprite_flag short d x0 y0⟩
  rw [drawSprite_pixel short]
  tauto

/-- Settles O45: the second draw inverts the same pixels; under a 1 bit, a lit pixel collides in the
first draw and an unlit one in the second. -/
theorem twoIdenticalDrawsCancel : Obligations.TwoIdenticalDrawsCancel := by
  intro d x0 y0 rows short
  refine ⟨drawSprite_twice short d x0 y0, ?_, fun clear => ?_⟩
  · rw [drawSprite_flag short, drawSprite_second_flag short, ← exists_spriteBit_iff x0 y0]
    constructor
    · rintro (⟨px, py, -, bit⟩ | ⟨px, py, -, bit⟩)
      · exact ⟨px, py, bit⟩
      · exact ⟨px, py, bit⟩
    · rintro ⟨px, py, bit⟩
      by_cases lit : pixel d px py = true
      · exact .inl ⟨px, py, lit, bit⟩
      · exact .inr ⟨px, py, lit, bit⟩
  · rw [drawSprite_second_flag short, ← exists_spriteBit_iff x0 y0, clear]
    simp

/-! ### The flag and the display instructions -/

theorem flag_toNat {t : State} (b : Bool) (k : Nat) :
    (((t.setFlag b).advance k).reg 15).toNat = if b = true then 1 else 0 := by
  rw [reg_advance, reg_setFlag, if_pos rfl, flagByte_toNat]

theorem flag_toNat_decide {t : State} (c : Prop) [Decidable c] (k : Nat) :
    (((t.setFlag (decide c)).advance k).reg 15).toNat = if c then 1 else 0 := by
  simp only [flag_toNat, decide_eq_true_eq]

/-- Settles O43: the range check of the slice decides; the rows are the bytes at `I`. -/
theorem drawSpriteFromMemory : Obligations.DrawSpriteFromMemory := by
  intro x y n s
  refine ⟨readsAs_packXYN 0xD x y n rfl rfl (by omega), fun fits => ?fits, fun past =>
    ⟨_, exec_drw_of_gt x y n past, onlyFaulted_takeFault _ s⟩⟩
  case fits =>
    have e := exec_drw_of_le x y n fits
    exact ⟨_, spriteRows n s, e, by simp [spriteRows], fun k => slice_getElem s fits, rfl,
      flag_toNat _ 2, movedOn_advance 2 rfl, (exec_frame e).1,
      keepsAllBut_of_latch (exec_frame e).2 rfl (by simp [writtenParts])⟩

/-- Settles O42: the cleared display, and the frame of CLS. -/
theorem clearScreen : Obligations.ClearScreen := fun s =>
  ⟨readsAs_of_encode (i := .cls) rfl rfl, _, exec_cls s, pixel_clearDisplay, movedOn_advance 2 rfl,
    exec_frame (exec_cls s)⟩

/-! ### The standalone helpers (60_exceptions.md rule R248) -/

theorem isByte (b : Byte) : 0 ≤ (b.toNat : Int) ∧ (b.toNat : Int) ≤ 255 := by
  have := b.isLt
  omega

theorem ofNat_toNat_int (b : Byte) : BitVec.ofNat 8 (b.toNat : Int).toNat = b := by
  rw [Int.toNat_natCast, BitVec.ofNat_toNat, BitVec.setWidth_eq]

/-- Settles O47: both helpers split on their defensive check. -/
theorem standaloneHelpers : Obligations.StandaloneHelpers := by
  refine ⟨fun v outside => ?_, fun b => ⟨?_, rowBits b, ?_, rowBits_length b, fun k hk => ?_⟩⟩
  · have notByte : ¬ (0 ≤ v ∧ v ≤ 255) := by omega
    exact ⟨if_neg notByte, if_neg notByte⟩
  · rw [bcdRoutine, if_pos (isByte b), ofNat_toNat_int, bcdDigits]
  · rw [decodeRowBits, if_pos (isByte b), ofNat_toNat_int]
  · rw [rowBits_getElem, Bool.eq_iff_iff, getLsbD_iff, decide_eq_true_iff]

end Sys2Proof.Proofs
end

section
/-! One instruction at a time: its word, its result, and its frame from the frame of all instructions
(41_control_flow.md, 42_alu.md, 43_index_memory.md, 45_timers_keys.md). -/

namespace Sys2Proof.Proofs

open Sys2Proof.Machine Sys2Proof.Laws Sys2Proof.Safety

/-! ### Control transfer -/

/-- Settles O21: SYS raises its own word, whose number is its operand. -/
theorem sysRaisesIllegalOpcode : Obligations.SysRaisesIllegalOpcode := by
  refine fun nnn s => ⟨fun ok => ?_, _, exec_sys nnn s, ?_⟩
  · exact readsAs_packA 0 nnn rfl ((wellFormed_sys_iff nnn).2 ok) (by omega)
  · have word : encode (.sys nnn) = BitVec.ofNat 16 nnn.toNat :=
      (ofNat_eq_packA 0 _ nnn (by omega)).symm
    rw [word]
    exact onlyFaulted_takeFault _ s

/-- Settles O22: both jumps write `PC` alone. -/
theorem jumpsSetPc : Obligations.JumpsSetPc := fun nnn s =>
  ⟨readsAs_packA 0x1 nnn rfl rfl rfl, readsAs_packA 0xB nnn rfl rfl rfl,
    ⟨_, exec_jp nnn s, absoluteAddr_toNat nnn, exec_frame (exec_jp nnn s)⟩,
    ⟨_, exec_jpV0 nnn s, offsetAddr_toNat s nnn, exec_frame (exec_jpV0 nnn s)⟩⟩

/-- Settles O23: CALL with room writes the next slot, the count and `PC`. -/
theorem callPushesAndJumps : Obligations.CallPushesAndJumps := by
  refine fun nnn s => ⟨readsAs_packA 0x2 nnn rfl rfl rfl, fun room => ?_⟩
  have e := exec_call_of_lt nnn room
  refine ⟨_, e, absoluteAddr_toNat nnn, rfl, ?pushed, fun k hk => ?others, (exec_frame e).1,
    keepsAllBut_of_latch (exec_frame e).2 rfl (by simp [writtenParts])⟩
  case pushed => simp
  case others => simp [Ne.symm hk]

/-- Settles O24: RET with entries writes the count and `PC`. -/
theorem retPopsIntoPc : Obligations.RetPopsIntoPc := by
  refine ⟨readsAs_of_encode (i := .ret) rfl rfl, fun s k sp => ?_⟩
  have e := exec_ret_of_pos (s := s) (by omega)
  have count : s.sp.val - 1 = k.val := by omega
  refine ⟨_, e, ?target, count, rfl, (exec_frame e).1,
    keepsAllBut_of_latch (exec_frame e).2 rfl (by simp [writtenParts])⟩
  case target => simp [count]

/-- Settles O27: a skip writes `PC` alone, by the distance its condition gives. -/
theorem registerSkips : Obligations.RegisterSkips := fun x y kk s =>
  ⟨readsAs_packXK 0x3 x kk rfl rfl (by omega), readsAs_packXK 0x4 x kk rfl rfl (by omega),
    readsAs_packXYN 0x5 x y 0 rfl rfl (by omega), readsAs_packXYN 0x9 x y 0 rfl rfl (by omega),
    ⟨_, exec_seByte x kk s, movedOn_advance _ rfl, exec_frame (exec_seByte x kk s)⟩,
    ⟨_, exec_sneByte x kk s, movedOn_advance _ rfl, exec_frame (exec_sneByte x kk s)⟩,
    ⟨_, exec_seReg x y s, movedOn_advance _ rfl, exec_frame (exec_seReg x y s)⟩,
    ⟨_, exec_sneReg x y s, movedOn_advance _ rfl, exec_frame (exec_sneReg x y s)⟩⟩

/-! ### Registers and arithmetic -/

section
variable (s : State) (x : Nibble) (b : Byte) (k : Nat)

theorem reg_setReg_advance : ((s.setReg x b).advance k).reg x = b := reg_setReg_self s x b

/-- The flag is written after the result, so the result stands unless `x` is 15 (42_alu.md rule R173). -/
theorem reg_setFlag_advance {x : Nibble} (notFlag : x ≠ 15) (flag : Bool) :
    (((s.setReg x b).setFlag flag).advance k).reg x = b := by
  rw [reg_advance, reg_setFlag, if_neg notFlag, reg_setReg_self]

end

/-- Settles O28: the operand byte itself. -/
theorem loadImmediate : Obligations.LoadImmediate := fun x kk s =>
  ⟨readsAs_packXK 0x6 x kk rfl rfl (by omega), _, exec_ldByte x kk s, reg_setReg_advance s x kk 2,
    movedOn_advance 2 rfl, exec_frame (exec_ldByte x kk s)⟩

/-- Settles O29: the sum of two bytes wraps modulo 256. -/
theorem addImmediate : Obligations.AddImmediate := fun x kk s =>
  ⟨readsAs_packXK 0x7 x kk rfl rfl (by omega), _, exec_addByte x kk s,
    (congrArg _ (reg_setReg_advance s x _ 2)).trans (BitVec.toNat_add ..), movedOn_advance 2 rfl,
    exec_frame (exec_addByte x kk s)⟩

/-- Settles O30: the source register, read before the write. -/
theorem copyRegister : Obligations.CopyRegister := fun x y s =>
  ⟨readsAs_packXYN 0x8 x y 0 rfl rfl (by omega), _, exec_ldReg x y s,
    reg_setReg_advance s x _ 2, movedOn_advance 2 rfl, exec_frame (exec_ldReg x y s)⟩

/-- Settles O31: the operations on bytes are those on their numbers. -/
theorem logicOperations : Obligations.LogicOperations := fun x y s =>
  ⟨readsAs_packXYN 0x8 x y 1 rfl rfl (by omega), readsAs_packXYN 0x8 x y 2 rfl rfl (by omega),
    readsAs_packXYN 0x8 x y 3 rfl rfl (by omega),
    ⟨_, exec_orReg x y s, (congrArg _ (reg_setReg_advance s x _ 2)).trans (BitVec.toNat_or ..),
      movedOn_advance 2 rfl, exec_frame (exec_orReg x y s)⟩,
    ⟨_, exec_andReg x y s, (congrArg _ (reg_setReg_advance s x _ 2)).trans (BitVec.toNat_and ..),
      movedOn_advance 2 rfl, exec_frame (exec_andReg x y s)⟩,
    ⟨_, exec_xorReg x y s, (congrArg _ (reg_setReg_advance s x _ 2)).trans (BitVec.toNat_xor ..),
      movedOn_advance 2 rfl, exec_frame (exec_xorReg x y s)⟩⟩

/-- Settles O32: the sum, then the carry. -/
theorem addRegisters : Obligations.AddRegisters := by
  refine fun x y s => ⟨readsAs_packXYN 0x8 x y 4 rfl rfl (by omega), _, exec_addReg x y s,
    fun notFlag => ?sum, ?flag, movedOn_advance 2 rfl, exec_frame (exec_addReg x y s)⟩
  case sum => rw [reg_setFlag_advance _ _ _ notFlag, BitVec.toNat_add]
  case flag => exact flag_toNat_decide _ 2

/-- The difference of two bytes wraps modulo 256. -/
theorem toNat_sub_byte (a b : Byte) : ((a - b).toNat : Int) = ((a.toNat : Int) - b.toNat) % 256 := by
  have := b.isLt
  rw [BitVec.toNat_sub]
  omega

/-- Settles O33: the difference, then the flag of no borrow. -/
theorem subtractRegisters : Obligations.SubtractRegisters := by
  refine fun x y s => ⟨readsAs_packXYN 0x8 x y 5 rfl rfl (by omega),
    readsAs_packXYN 0x8 x y 7 rfl rfl (by omega),
    ⟨_, exec_subReg x y s, fun notFlag => ?_, ?_, movedOn_advance 2 rfl, exec_frame (exec_subReg x y s)⟩,
    ⟨_, exec_subn x y s, fun notFlag => ?_, ?_, movedOn_advance 2 rfl, exec_frame (exec_subn x y s)⟩⟩
  · rw [reg_setFlag_advance _ _ _ notFlag, toNat_sub_byte]
  · exact flag_toNat_decide _ 2
  · rw [reg_setFlag_advance _ _ _ notFlag, toNat_sub_byte]
  · exact flag_toNat_decide _ 2

/-- The operand of a shift is the register that `SHIFT_SRC` selects (42_alu.md rule R169). -/
theorem shiftSource_cases (x y : Nibble) (s : State) :
    (Config.shiftSrc = .vx ∧ shiftSource x y s = s.reg x) ∨
      (Config.shiftSrc = .vy ∧ shiftSource x y s = s.reg y) := by
  unfold shiftSource shiftSourceWith
  cases Config.shiftSrc with
  | vx => exact .inl ⟨rfl, by split <;> rfl⟩
  | vy =>
    refine .inr ⟨rfl, ?_⟩
    split
    · next same => rw [same]
    · rfl

theorem lowBit_toNat (a : Byte) : (if lowBit a = true then 1 else 0) = a.toNat % 2 := by
  simp only [lowBit, getLsbD_iff, Nat.shiftRight_zero]
  split <;> omega

theorem highBit_toNat (a : Byte) : (if highBit a = true then 1 else 0) = a.toNat / 128 := by
  have := a.isLt
  simp only [highBit, getLsbD_iff, Nat.shiftRight_eq_div_pow]
  split <;> omega

theorem toNat_shiftRight_one (a : Byte) : (a >>> 1).toNat = a.toNat / 2 := by
  rw [BitVec.toNat_ushiftRight, Nat.shiftRight_eq_div_pow]

theorem toNat_shiftLeft_one (a : Byte) : (a <<< 1).toNat = a.toNat * 2 % 256 := by
  rw [BitVec.toNat_shiftLeft, Nat.shiftLeft_eq]

/-- Settles O34: both shifts of the selected operand, then the bit shifted out. -/
theorem shifts : Obligations.Shifts := by
  refine fun x y s => ⟨readsAs_packXYN 0x8 x y 6 rfl rfl (by omega),
    readsAs_packXYN 0x8 x y 14 rfl rfl (by omega), shiftSource x y s, shiftSource_cases x y s,
    ⟨_, exec_shr x y s, fun notFlag => ?_, ?_, movedOn_advance 2 rfl, exec_frame (exec_shr x y s)⟩,
    ⟨_, exec_shl x y s, fun notFlag => ?_, ?_, movedOn_advance 2 rfl, exec_frame (exec_shl x y s)⟩⟩
  · rw [reg_setFlag_advance _ _ _ notFlag, toNat_shiftRight_one]
  · rw [flag_toNat, lowBit_toNat]
  · rw [reg_setFlag_advance _ _ _ notFlag, toNat_shiftLeft_one]
  · rw [flag_toNat, highBit_toNat]

/-- Settles O35: the free byte of the current draw, masked. -/
theorem randomAndMask : Obligations.RandomAndMask := fun x kk s =>
  ⟨readsAs_packXK 0xC x kk rfl rfl (by omega), _, exec_rnd x kk s,
    (congrArg _ (reg_setReg_self s x _)).trans (BitVec.toNat_and ..), rfl, movedOn_advance 2 rfl,
    exec_frame (exec_rnd x kk s)⟩

/-! ### The index register -/

/-- Settles O36: the last address is in memory, the one after it is not. -/
theorem loadIndex : Obligations.LoadIndex := by
  intro nnn s
  obtain ⟨regs, parts⟩ := exec_frame (exec_ldI nnn s)
  refine ⟨readsAs_packA 0xA nnn rfl rfl rfl, _, exec_ldI nnn s, absoluteAddr_toNat nnn,
    movedOn_advance 2 rfl, regs, parts, fun top b => ?_⟩
  rw [advance_i, setI_i, absoluteAddr_toNat, top]
  exact ⟨⟨_, memRead_of_lt (by decide) _⟩, ⟨_, memWrite_of_lt (by decide) b _⟩,
    memRead_of_ge (by decide) _, memWrite_of_ge (by decide) b _⟩

theorem addIndexWith_false (x : Nibble) (s : State) :
    addIndexWith false x s = .next ((s.setI (wrapAddr (indexSum x s))).advance 2) := rfl

theorem setI_writesOnly {w : Word} (s : State) (hw : w.toNat < 4096) :
    WritesOnly [] [.index] s ((s.setI w).advance 2) :=
  (WritesOnly.refl.setI hw (by simp)).advance 2

/-- Settles O37: the sum modulo 4096, and its overflow where the flag is written. -/
theorem addToIndex : Obligations.AddToIndex := by
  refine fun x s => ⟨readsAs_packX 0xF x 0x1E#8 rfl rfl,
    ⟨_, exec_addI x s, wrapAddr_toNat _, ?flag, movedOn_advance 2 rfl, exec_frame (exec_addI x s)⟩,
    ⟨_, addIndexWith_false x s, wrapAddr_toNat _, movedOn_advance 2 rfl,
      (setI_writesOnly s (wrapAddr_lt _)).keepsRegsBut, (setI_writesOnly s (wrapAddr_lt _)).keepsAllBut⟩⟩
  case flag => exact flag_toNat_decide _ 2

/-- Settles O38: five times a byte fits the index register. -/
theorem fontAddress : Obligations.FontAddress := fun x s =>
  ⟨readsAs_packX 0xF x 0x29#8 rfl rfl, _, exec_ldF x s, glyphAddr_toNat s x,
    movedOn_advance 2 rfl, exec_frame (exec_ldF x s)⟩

/-! ### Timers and keys -/

/-- Settles O48: the delay timer, into a register. -/
theorem readDelayTimer : Obligations.ReadDelayTimer := fun x s =>
  ⟨readsAs_packX 0xF x 0x07#8 rfl rfl, _, exec_ldVxDt x s,
    reg_setReg_advance s x s.dt 2, movedOn_advance 2 rfl, exec_frame (exec_ldVxDt x s)⟩

/-- Settles O49: a register, into either timer. -/
theorem setTimers : Obligations.SetTimers := fun x s =>
  ⟨readsAs_packX 0xF x 0x15#8 rfl rfl, readsAs_packX 0xF x 0x18#8 rfl rfl,
    ⟨_, exec_ldDtVx x s, rfl, movedOn_advance 2 rfl, exec_frame (exec_ldDtVx x s)⟩,
    ⟨_, exec_ldStVx x s, rfl, soundActive_iff _, movedOn_advance 2 rfl, exec_frame (exec_ldStVx x s)⟩⟩

/-- Settles O52: both skips ask whether the pressed key is the one `V[x]` names. -/
theorem keySkips : Obligations.KeySkips := by
  intro x s
  obtain ⟨regs, parts⟩ := exec_frame (exec_skp x s)
  obtain ⟨regs', parts'⟩ := exec_frame (exec_sknp x s)
  refine ⟨readsAs_packX 0xE x 0x9E#8 rfl rfl,
    readsAs_packX 0xE x 0xA1#8 rfl rfl, _, _, exec_skp x s, exec_sknp x s,
    fun named => ?_, fun other => ?_, regs, parts, regs', parts'⟩
  · rw [if_pos ((keyIs_iff _ s).2 named), if_pos ((keyIs_iff _ s).2 named)]
    exact ⟨movedOn_advance 4 rfl, movedOn_advance 2 rfl⟩
  · have notNamed : ¬ keyIs (s.reg x) s = true := fun h => by
      obtain ⟨k, pressed, same⟩ := (keyIs_iff _ s).1 h
      exact other k pressed same
    rw [if_neg notNamed, if_neg notNamed]
    exact ⟨movedOn_advance 2 rfl, movedOn_advance 4 rfl⟩

/-- Settles O53: a pressed key is taken, and without one the wait begins. -/
theorem waitForKey : Obligations.WaitForKey := by
  refine fun x s => ⟨readsAs_packX 0xF x 0x0A#8 rfl rfl, fun k key => ?taken,
    fun key => ?waits⟩
  case taken =>
    have e := exec_ldVxK_of_some x key
    refine ⟨_, e, ?_, rfl, movedOn_advance 2 rfl, (exec_frame e).1,
      keepsAllBut_of_keeps (exec_frame e).2 fun p hp notPressed => ?_⟩
    · rw [reg_advance, reg_takeKey, if_pos rfl, keyByte_toNat]
    · obtain rfl | rfl | rfl : p = .pressed ∨ p = .waiting ∨ p = .waitReg := by
        simpa [writtenParts] using hp
      · exact absurd (List.mem_singleton_self _) notPressed
      · rfl
      · rfl
  case waits =>
    have e := exec_ldVxK_of_none x key
    refine ⟨_, e, rfl, rfl, rfl, fun r _ => rfl,
      keepsAllBut_of_keeps (exec_frame e).2 fun p hp notWait => ?_⟩
    obtain rfl | wait : p = .pressed ∨ p ∈ [Part.waiting, .waitReg] := by
      simpa [writtenParts] using hp
    · rfl
    · exact absurd wait notWait

end Sys2Proof.Proofs
end
